-- ==== Sys2Proof/Word.lean ====
section
/-! DEFINITION. The widths of the core's values (spec 00 R8, R16; 30 R80). -/

namespace Sys2Proof

/-- A byte of a buffer, of `arg` or of a response (`BYTE = 8`, R8). -/
abbrev Byte := BitVec 8

/-- The unit of original data, 0 to 15 (`K = 4`, R8, R16). -/
abbrev Nibble := BitVec 4

/-- A 7-bit word or codeword, one bit per position 0 to 6 (`N = 7`, R8, R16, R17). -/
abbrev Codeword := BitVec 7

/-- A 3-bit syndrome (`M = 3`, R8, R16). -/
abbrev Syndrome := BitVec 3

/-- A 12-bit command word `cmd[11:0]` (R80). -/
abbrev Cmd := BitVec 12

end Sys2Proof
end

