-- ==== Sys2Proof/Syntax.lean ====
section
/-! DEFINITION. The twelve commands, the two fields of a command word and the four faults as syntax
(spec 00 R4, R14; 30 R80, R82; 60 R181). Every operand has exactly the width of its declared range
(30 R82, R92), so a value of `Instr` is in its domain by construction. -/

namespace Sys2Proof

/-- The twelve commands of R4, one constructor per row of the opcode table. -/
inductive Instr where
  /-- INIT, `initialize_tables` (R106). -/
  | init
  /-- PAR, `parity(x)` (R101). -/
  | par (x : Byte)
  /-- ENC, `encode_block` (R121). -/
  | enc (n : Nibble)
  /-- SYN, `compute_syndrome_vector` (R123). -/
  | syn (c : Codeword)
  /-- ERR, `compute_error` (R125). -/
  | err (s : Syndrome)
  /-- DEC, `decode_block` (R126). -/
  | dec (c : Codeword)
  /-- PUT, `put_word` (R141). -/
  | put (w : Codeword)
  /-- GET, `get_word` (R145). -/
  | get
  /-- ENCB, the per-byte body of `encode_data` (R161). -/
  | encb (b : Byte)
  /-- DECB, the per-pair body of `decode_data` (R162). -/
  | decb
  /-- PCLR, empty the packer (R148). -/
  | pclr
  /-- STAT, read the status register (R149). -/
  | stat
  deriving DecidableEq, Repr

/-- The two fields of a command word, `op = cmd[11:8]` and `arg = cmd[7:0]` (R80). Any pair of values
can be issued; `WellFormed` says which pairs are legal. -/
structure Command where
  op  : BitVec 4
  arg : Byte
  deriving DecidableEq, Repr

/-- The four faults of the core (R14, R181). Each is a refusal of one command: the machine goes on. -/
inductive FaultKind where
  /-- Unassigned operation (R182). -/
  | illegalOp
  /-- A reserved bit of `arg` is 1 (R183). -/
  | operandRange
  /-- The stop rule was not respected (R185). -/
  | underflow
  /-- A byte at or beyond `BUF_BYTES` would be created (R184). -/
  | overflow
  deriving DecidableEq, Repr

end Sys2Proof
end

