-- ==== Sys2Proof/WellFormed.lean ====
section
/-! DEFINITION. Which pairs `(op, arg)` are a legal command (spec 30 R82, R84 to R87): two checks, in the
order of R91. `Instr` needs no check of its own: each operand is exactly as wide as its range (30 R82, R92). -/

namespace Sys2Proof

/-- First check (R85): the operation is one of the twelve assigned ones, `0x0` to `0xB`. -/
def Command.assigned (c : Command) : Bool := c.op < 0xC#4

/-- The reserved bits of `arg` for each assigned operation (R82). -/
def Command.reservedBits (c : Command) : Byte :=
  match c.op.toNat with
  | 1 => 0x00  -- PAR: all of arg is operand
  | 2 => 0xF0  -- ENC: arg[7:4]
  | 3 => 0x80  -- SYN: arg[7]
  | 4 => 0xF8  -- ERR: arg[7:3]
  | 5 => 0x80  -- DEC: arg[7]
  | 6 => 0x80  -- PUT: arg[7]
  | 8 => 0x00  -- ENCB: all of arg is operand
  | _ => 0xFF  -- INIT, GET, DECB, PCLR, STAT: no operand

/-- Second check (R86): every reserved bit of `arg` is 0. -/
def Command.operandInRange (c : Command) : Bool := c.arg &&& c.reservedBits == 0

/-- A legal command: assigned, and its operand in its declared domain (R84, R91). -/
def Command.wellFormed (c : Command) : Bool := c.assigned && c.operandInRange

end Sys2Proof
end

