-- ==== Sys2Proof/Decode.lean ====
section
/-! DEFINITION. The command decoder, total on all 4096 words and rejecting by name (spec 30 R80 to R92), the
encoder, the opcode table as data, and the host's reading of a table word. -/

namespace Sys2Proof

/-- What the decoder answers (R91): a command, or the fault that rejects the word. -/
inductive Decoded where
  /-- The word is this command (R91 step 3). -/
  | command (i : Instr)
  /-- The word raises this fault, IllegalOp or OperandRange (R91 steps 1 and 2). -/
  | reject (k : FaultKind)
  deriving DecidableEq, Repr

/-- The fields of a command word (R80). -/
def fieldsOf (w : Cmd) : Command := { op := w.extractLsb' 8 4, arg := w.extractLsb' 0 8 }

/-- A command whose operand is the low `k` bits of `arg`; the bits above are reserved (R82, R86). -/
def decodeOperand (k : Nat) (mk : BitVec k → Instr) (arg : Byte) : Decoded :=
  if arg >>> k = 0#8 then .command (mk (arg.extractLsb' 0 k)) else .reject .operandRange

/-- A command with no operand: all of `arg` is reserved (R82, R86). -/
def decodeNoOperand (i : Instr) (arg : Byte) : Decoded :=
  if arg = 0#8 then .command i else .reject .operandRange

/-- R91: the operation first (IllegalOp), then the reserved bits (OperandRange), then the command. -/
def decodeFields (c : Command) : Decoded :=
  match c.op.toNat with
  | 0x0 => decodeNoOperand .init c.arg
  | 0x1 => decodeOperand 8 .par c.arg
  | 0x2 => decodeOperand 4 .enc c.arg
  | 0x3 => decodeOperand 7 .syn c.arg
  | 0x4 => decodeOperand 3 .err c.arg
  | 0x5 => decodeOperand 7 .dec c.arg
  | 0x6 => decodeOperand 7 .put c.arg
  | 0x7 => decodeNoOperand .get c.arg
  | 0x8 => decodeOperand 8 .encb c.arg
  | 0x9 => decodeNoOperand .decb c.arg
  | 0xA => decodeNoOperand .pclr c.arg
  | 0xB => decodeNoOperand .stat c.arg
  | _   => .reject .illegalOp

/-- The decoder on a command word (R91). -/
def decode (w : Cmd) : Decoded := decodeFields (fieldsOf w)

/-- The fields of a command, operand zero-extended into `arg` (R82). -/
def encodeFields : Instr → Command
  | .init   => { op := 0x0, arg := 0 }
  | .par x  => { op := 0x1, arg := x }
  | .enc n  => { op := 0x2, arg := n.setWidth 8 }
  | .syn c  => { op := 0x3, arg := c.setWidth 8 }
  | .err s  => { op := 0x4, arg := s.setWidth 8 }
  | .dec c  => { op := 0x5, arg := c.setWidth 8 }
  | .put w  => { op := 0x6, arg := w.setWidth 8 }
  | .get    => { op := 0x7, arg := 0 }
  | .encb b => { op := 0x8, arg := b }
  | .decb   => { op := 0x9, arg := 0 }
  | .pclr   => { op := 0xA, arg := 0 }
  | .stat   => { op := 0xB, arg := 0 }

/-- The word of two fields, `op` in the high four bits (R80). -/
def wordOf (c : Command) : Cmd := c.op ++ c.arg

/-- The command word of an instruction (R80, R82). -/
def encode (i : Instr) : Cmd := wordOf (encodeFields i)

/-- The mnemonic of each operation (R82, R89). -/
def Instr.mnemonic : Instr → String
  | .init   => "INIT"
  | .par _  => "PAR"
  | .enc _  => "ENC"
  | .syn _  => "SYN"
  | .err _  => "ERR"
  | .dec _  => "DEC"
  | .put _  => "PUT"
  | .get    => "GET"
  | .encb _ => "ENCB"
  | .decb   => "DECB"
  | .pclr   => "PCLR"
  | .stat   => "STAT"

/-- One row of the opcode table: `cmd &&& mask = pattern` selects it (R84). -/
structure OpcodeRow where
  mnemonic : String
  pattern  : Cmd
  mask     : Cmd
  deriving DecidableEq, Repr

/-- The rows of spec/opcode_table.json (R84). The decoder does not read them. -/
def opcodeTable : List OpcodeRow :=
  [ ⟨"INIT", 0x000, 0xFFF⟩, ⟨"PAR",  0x100, 0xF00⟩, ⟨"ENC",  0x200, 0xFF0⟩, ⟨"SYN",  0x300, 0xF80⟩,
    ⟨"ERR",  0x400, 0xFF8⟩, ⟨"DEC",  0x500, 0xF80⟩, ⟨"PUT",  0x600, 0xF80⟩, ⟨"GET",  0x700, 0xFFF⟩,
    ⟨"ENCB", 0x800, 0xF00⟩, ⟨"DECB", 0x900, 0xFFF⟩, ⟨"PCLR", 0xA00, 0xFFF⟩, ⟨"STAT", 0xB00, 0xFFF⟩ ]

/-- The mnemonics of the rows a word selects (R84). -/
def rowsOf (w : Cmd) : List String :=
  (opcodeTable.filter fun r => w &&& r.mask == r.pattern).map (·.mnemonic)

/-- The command the decoder reads from a table word. The table numbers the bits of the one 12-bit command
word from its least significant bit, so the number is the word; a number that needs more than 12 bits is no
command word (log entry 10). -/
def decodeTableWord (_nbits w : Nat) : Option Instr :=
  if w < 4096 then
    match decode (BitVec.ofNat 12 w) with
    | .command i => some i
    | .reject _  => none
  else none

end Sys2Proof
end

