-- ==== Sys2Proof/Config.lean ====
section
/-! DEFINITION. What is fixed for one instance of the core and is not state (spec 00 R9, 10 R20). -/

namespace Sys2Proof

/-- The configuration argument of the model. -/
structure Config where
  /-- `BUF_BYTES`, the capacity in bytes of each of the two stream buffers: `none` is `unbounded` (R9). -/
  bufBytes : Option Nat
  deriving DecidableEq, Repr

/-- The default configuration: unbounded buffers, under which Overflow never occurs (R9). -/
def Config.default : Config := { bufBytes := none }

end Sys2Proof
end

