-- ==== Sys2Proof/Machine/Tables.lean ====
section
/-! DEFINITION. The parity function, the matrices G and H, the functions of the four combinational sub-blocks and
the generation of the four tables (spec 40 R100 to R105; 41 R121 to R126; 10 R25 to R28). -/

namespace Sys2Proof.Machine

/-- A table whose entry `a` is `f a`. -/
def tabulate {α : Type} (n : Nat) (f : Nat → α) : Vector α n :=
  ⟨((List.range n).map f).toArray, by simp⟩

/-- The number of set bits (R12). -/
def popcount (x : Byte) : Nat :=
  x[0].toNat + x[1].toNat + x[2].toNat + x[3].toNat + x[4].toNat + x[5].toNat + x[6].toNat + x[7].toNat

/-- `parity(x) = popcount(x) mod 2` (R100). -/
def parity (x : Byte) : BitVec 1 := BitVec.ofNat 1 (popcount x % 2)

/-- Generator matrix G: row `i` is the mask of the nibble bits of codeword bit `i` (R102). -/
def matrixG : Vector Nibble 7 := #v[0x8, 0x4, 0x2, 0xE, 0x1, 0xD, 0xB]

/-- Parity-check matrix H: row `j` is the mask of the codeword bits of syndrome bit `j` (R103). -/
def matrixH : Vector Codeword 3 := #v[0x55, 0x33, 0x0F]

/-- One bit of a matrix product: `PAR_ROM[v & row]` (R104). -/
def rowBit {k : Nat} (par : Vector (BitVec 1) 256) (v row : BitVec k) : BitVec 1 :=
  par[((v &&& row).setWidth 8).toNat]

/-- ENC's function: codeword bit `i` is `PAR_ROM[n & G[i]]` (R121). -/
def encodeBlock (par : Vector (BitVec 1) 256) (n : Nibble) : Codeword :=
  rowBit par n matrixG[6] ++ rowBit par n matrixG[5] ++ rowBit par n matrixG[4] ++ rowBit par n matrixG[3] ++
  rowBit par n matrixG[2] ++ rowBit par n matrixG[1] ++ rowBit par n matrixG[0]

/-- SYN's function: syndrome bit `j` is `PAR_ROM[c & H[j]]` (R123). -/
def syndromeOf (par : Vector (BitVec 1) 256) (c : Codeword) : Syndrome :=
  rowBit par c matrixH[2] ++ rowBit par c matrixH[1] ++ rowBit par c matrixH[0]

/-- ERR's function: 0 for syndrome 0, otherwise bit `7 − s` alone (R125). -/
def errorMask (s : Syndrome) : Codeword := if s = 0 then 0 else 1#7 <<< (7 - s.toNat)

/-- The nibble of a corrected codeword: its bits 4, 2, 1, 0 as nibble bits 0, 1, 2, 3 (R126, R127). -/
def extractNibble (d : Codeword) : Nibble :=
  BitVec.ofBool d[0] ++ BitVec.ofBool d[1] ++ BitVec.ofBool d[2] ++ BitVec.ofBool d[4]

/-- DEC's function: syndrome, error mask, exclusive OR, extraction (R126). -/
def decodeBlock (syn : Vector Syndrome 128) (c : Codeword) : Nibble :=
  extractNibble (c ^^^ errorMask syn[c.toNat])

/-- The four lookup tables (R25 to R28). -/
structure Tables where
  /-- `PAR_ROM`, 256 entries of 1 bit (R25). -/
  par : Vector (BitVec 1) 256
  /-- `ENC_ROM`, 16 entries of 7 bits (R26). -/
  enc : Vector Codeword 16
  /-- `SYN_ROM`, 128 entries of 3 bits (R27). -/
  syn : Vector Syndrome 128
  /-- `DEC_ROM`, 128 entries of 4 bits (R28). -/
  dec : Vector Nibble 128
  deriving DecidableEq, Repr

/-- Step 1 of the generation (R105): `PAR_ROM[x] <- popcount(x) mod 2`. -/
def parTable : Vector (BitVec 1) 256 := tabulate 256 fun a => parity (BitVec.ofNat 8 a)

/-- Step 2 (R105): `ENC_ROM[n]` from `PAR_ROM` and G. -/
def encTable : Vector Codeword 16 := tabulate 16 fun a => encodeBlock parTable (BitVec.ofNat 4 a)

/-- Step 3 (R105): `SYN_ROM[c]` from `PAR_ROM` and H. -/
def synTable : Vector Syndrome 128 := tabulate 128 fun a => syndromeOf parTable (BitVec.ofNat 7 a)

/-- Step 4 (R105): `DEC_ROM[c]` from `SYN_ROM` and the error locator. -/
def decTable : Vector Nibble 128 := tabulate 128 fun a => decodeBlock synTable (BitVec.ofNat 7 a)

/-- The four tables at the values of R105, which they hold from reset on (R36, R37, R38). -/
def Tables.generated : Tables := { par := parTable, enc := encTable, syn := synTable, dec := decTable }

/-- `PAR_ROM[x]`, the sub-block `parity_rom` (R13, R92, R101). -/
def Tables.parAt (t : Tables) (x : Byte) : BitVec 1 := t.par[x.toNat]

/-- `ENC_ROM[n]`, the sub-block `hamming_7_4_encoder` (R13, R92, R121). -/
def Tables.encAt (t : Tables) (n : Nibble) : Codeword := t.enc[n.toNat]

/-- `SYN_ROM[c]`, the sub-block `syndrome_calculator` (R13, R92, R123). -/
def Tables.synAt (t : Tables) (c : Codeword) : Syndrome := t.syn[c.toNat]

/-- `DEC_ROM[c]`, the sub-block `hamming_7_4_decoder` (R13, R92, R126). -/
def Tables.decAt (t : Tables) (c : Codeword) : Nibble := t.dec[c.toNat]

end Sys2Proof.Machine
end

