-- ==== Sys2Proof/Machine/State.lean ====
section
/-! DEFINITION. The state of the core as plain data, what a command or host action returns, the host's pending
inputs, the reasons a step can stop, and the state after reset (spec 10 R20 to R40; 30 R81; 60 R196 to R198; 70 R210). -/

namespace Sys2Proof.Machine

/-- A byte buffer: an ordered sequence of bytes, byte `i` at index `i` (R16, R29, R30). The sequence is its own
canonical form: equal buffers are equal lists, and its length is state (log entry 7). -/
abbrev Memory := List Byte

/-- A BitCursor: byte index and bit offset within the byte, always in 0 to 7 (R16, R23, R24). -/
structure Cursor where
  byte : Nat
  off  : Fin 8
  deriving DecidableEq, Repr

/-- The response to a command (R81). -/
inductive Response where
  /-- `ok(res)`: the result, zero-extended to 8 bits. -/
  | ok (res : Byte)
  /-- `fault(code)`: the 3-bit fault code of R181, and no result. -/
  | fault (code : BitVec 3)
  deriving DecidableEq, Repr

/-- What the last command or host action gave back to the host. -/
inductive Output where
  /-- The one response of a command (R81). -/
  | response (r : Response)
  /-- HOST_LOAD was accepted (`true`) or refused (`false`) (R197). -/
  | hostLoad (accepted : Bool)
  /-- HOST_READ: the bytes of PBUF in index order, and PCUR (R198). -/
  | hostRead (bytes : Memory) (cur : Cursor)
  deriving DecidableEq, Repr

/-- What the outside can do to the core, one at a time, between responses (R15, R196, R210). -/
inductive Input where
  /-- Issue a command: any of the 4096 words (R199). -/
  | command (cmd : Cmd)
  /-- `HOST_LOAD bytes, (B, O)`; `offset` is any number, and one above 7 is refused (R197). -/
  | hostLoad (bytes : Memory) (byteIdx : Nat) (offset : Nat)
  /-- `HOST_READ` (R198). -/
  | hostRead
  /-- The reset event (R210). -/
  | reset
  deriving DecidableEq, Repr

/-- The state of the core (R20), with three fields of the model's own: `cfg`, `input`, `output`. -/
structure State where
  /-- The configuration argument `BUF_BYTES` (R9); no step changes it (log entry 1). -/
  cfg    : Config
  /-- `PAR_ROM`, `ENC_ROM`, `SYN_ROM`, `DEC_ROM` (R25 to R28). -/
  rom    : Tables
  /-- `PBUF`, the packer buffer (R29). -/
  pbuf   : Memory
  /-- `PCUR = (PB, PO)`, the packer cursor (R23). -/
  pcur   : Cursor
  /-- `UBUF`, the unpacker buffer (R30). -/
  ubuf   : Memory
  /-- `UCUR = (UB, UO)`, the unpacker cursor (R24). -/
  ucur   : Cursor
  /-- `F_ILL`, sticky bit of IllegalOp (R35). -/
  fIll   : Bool
  /-- `F_OPR`, sticky bit of OperandRange (R35). -/
  fOpr   : Bool
  /-- `F_UND`, sticky bit of Underflow (R35). -/
  fUnd   : Bool
  /-- `F_OVF`, sticky bit of Overflow (R35). -/
  fOvf   : Bool
  /-- The commands and host actions still to be performed, oldest first: the input of the steps to come (R15,
  R20; log entry 2). -/
  input  : List Input
  /-- What the last command or host action returned: the output of the last step (R20, R81; log entry 3).
  `none` means that nothing has been returned since reset. -/
  output : Option Output
  deriving DecidableEq, Repr

/-- Why a step can stop the machine. The four faults of the core are NOT here: they are next states (R186, R187). -/
inductive Fault where
  /-- PUT, GET, ENCB or DECB would touch a buffer byte that does not exist, `index` not below the length (R13,
  R67). Only a state that breaks the packer invariant R31 gets here (log entry 8). Safe: the model stops. -/
  | bufferBounds (index : Nat)
  deriving DecidableEq, Repr

/-- Why a step can have no meaning. -/
inductive Refusal where
  /-- Raised by an arm of `exec` whose instruction has no meaning yet; there is none. Safe: the model stops. -/
  | notModelled (mnemonic : String)
  deriving DecidableEq, Repr

/-- The state right after reset with a given configuration (R38, R210): tables at their constants, both buffers
empty, both cursors `(0, 0)`, the four sticky bits 0. -/
def State.resetWith (cfg : Config) : State :=
  { cfg    := cfg
    rom    := Tables.generated
    pbuf   := []
    pcur   := { byte := 0, off := 0 }
    ubuf   := []
    ucur   := { byte := 0, off := 0 }
    fIll   := false
    fOpr   := false
    fUnd   := false
    fOvf   := false
    input  := []
    output := none }

/-- The state right after reset, `BUF_BYTES` at its default (R9, R38). -/
def State.reset : State := State.resetWith Config.default

end Sys2Proof.Machine
end

