-- ==== Sys2Proof/Machine/Ops.lean ====
section
/-! DEFINITION. The named operations over cursors, buffers, responses and inputs, and raising a fault (spec 20 R51 to R57;
30 R81; 42 R141 to R147, R151; 60 R181, R186). There is no return from a fault to stand beside `State.raise`: a
fault is over when its response is returned (60 R187, R192). -/

namespace Sys2Proof.Machine

/-- What a step of this machine answers. -/
abbrev Outcome := Host.Outcome State Fault Refusal

/-- `pos(B, O) = 8·B + O`, the stream position of a cursor (R13). -/
def Cursor.pos (c : Cursor) : Nat := 8 * c.byte + c.off.val

/-- The cursor of a stream position `p`: `(p div 8, p mod 8)` (R51). -/
def Cursor.ofPos (p : Nat) : Cursor := { byte := p / 8, off := ⟨p % 8, Nat.mod_lt p (Nat.succ_pos 7)⟩ }

/-- `advance(B, o) = ((8·B + o + 7) div 8, (o + 7) mod 8)` (R144). -/
def Cursor.advance (c : Cursor) : Cursor :=
  { byte := (8 * c.byte + c.off.val + 7) / 8, off := ⟨(c.off.val + 7) % 8, Nat.mod_lt _ (Nat.succ_pos 7)⟩ }

/-- The bit of a buffer at stream position `p`: bit `p mod 8` of byte `p div 8`, bit 0 least significant (R51); 0
beyond the end. -/
def streamBit (buf : Memory) (p : Nat) : Bool := (buf.getD (p / 8) 0).getLsbD (p % 8)

/-- A buffer respects the capacity: `len ≤ BUF_BYTES` when `BUF_BYTES` is a number (R29, R30). -/
def Memory.wf (cfg : Config) (buf : Memory) : Bool :=
  match cfg.bufBytes with
  | none   => true
  | some n => buf.length ≤ n

/-- The part of a word that goes into byte `B`: `(w << o) & 0xFF`, computed in 16 bits (R141). -/
def lowPart (w : Codeword) (o : Fin 8) : Byte := ((w.setWidth 16 <<< o.val) &&& 0xFF#16).setWidth 8

/-- The part of a word that goes into byte `B + 1`: `w >> (8 − o)` (R141). -/
def highPart (w : Codeword) (o : Fin 8) : Byte := w.setWidth 8 >>> (8 - o.val)

/-- The writes of PUT after its capacity check (R141): append byte `B` as 0x00 if it does not exist (R56), OR the
low part into it, append the high part as byte `B + 1` when the word crosses. `none` when byte `B` does not exist
even then, which the packer invariant R31 excludes. -/
def packWord (buf : Memory) (c : Cursor) (w : Codeword) : Option Memory :=
  let grown := if buf.length = c.byte then buf ++ [0x00#8] else buf
  match grown[c.byte]? with
  | none => none
  | some old =>
    let ored := grown.set c.byte (old ||| lowPart w c.off)
    some (if 2 ≤ c.off.val then ored ++ [highPart w c.off] else ored)

/-- The reads of GET after its stop-rule check (R145): byte `B` shifted right by `o`, byte `B + 1` ORed in when
the word crosses, cut to 7 bits; computed in 16 bits. `none` when a byte does not exist, which the check excludes
(R147). -/
def unpackWord (buf : Memory) (c : Cursor) : Option Codeword :=
  match buf[c.byte]? with
  | none => none
  | some x =>
    let v := x.setWidth 16 >>> c.off.val
    if 2 ≤ c.off.val then
      match buf[c.byte + 1]? with
      | none => none
      | some y => some (((v ||| (y.setWidth 16 <<< (8 - c.off.val))) &&& 0x7F#16).setWidth 7)
    else some ((v &&& 0x7F#16).setWidth 7)

/-- The code of each fault (R181). -/
def faultCode : FaultKind → BitVec 3
  | .illegalOp    => 1
  | .operandRange => 2
  | .underflow    => 3
  | .overflow     => 4

/-- The sticky bit of each fault (R35, R181). -/
def State.sticky (s : State) : FaultKind → Bool
  | .illegalOp    => s.fIll
  | .operandRange => s.fOpr
  | .underflow    => s.fUnd
  | .overflow     => s.fOvf

/-- Return one response to the host (R81). -/
def State.respond (s : State) (r : Response) : State := { s with output := some (.response r) }

/-- Return `ok(res)` (R81). -/
def State.respondOk (s : State) (res : Byte) : State := s.respond (.ok res)

/-- Fault entry (R14, R186): nothing the command would write is written, the sticky bit of the fault is set (it
stays 1 if it was), and the response is `fault(code)`. Nothing else happens. -/
def State.raise (s : State) (k : FaultKind) : State :=
  { s with
    fIll   := s.fIll || k == .illegalOp
    fOpr   := s.fOpr || k == .operandRange
    fUnd   := s.fUnd || k == .underflow
    fOvf   := s.fOvf || k == .overflow
    output := some (.response (.fault (faultCode k))) }

/-- Replace the packer's buffer and cursor (R141, R148). -/
def State.setPacker (s : State) (buf : Memory) (c : Cursor) : State := { s with pbuf := buf, pcur := c }

/-- Move the unpacker's cursor (R145). -/
def State.setUcur (s : State) (c : Cursor) : State := { s with ucur := c }

/-- Replace the unpacker's buffer and cursor (R197). -/
def State.setUnpacker (s : State) (buf : Memory) (c : Cursor) : State := { s with ubuf := buf, ucur := c }

/-- Give the host action a result (R197, R198). -/
def State.reply (s : State) (o : Output) : State := { s with output := some o }

/-- Put an input in front of the pending ones: the next step performs it. -/
def State.withInput (s : State) (e : Input) : State := { s with input := e :: s.input }

/-- Take the oldest pending input, if there is one (R196). -/
def State.takeInput (s : State) : Option (Input × State) :=
  match s.input with
  | []        => none
  | e :: rest => some (e, { s with input := rest })

/-- PUT's capacity check (R141, R143): the highest byte index the word touches is not below `BUF_BYTES`. -/
def State.putOverflows (s : State) : Bool :=
  match s.cfg.bufBytes with
  | none   => false
  | some n => n ≤ (if 2 ≤ s.pcur.off.val then s.pcur.byte + 1 else s.pcur.byte)

/-- ENCB's capacity check (R161): `8·B + o + 14 > 8·BUF_BYTES`. -/
def State.pairOverflows (s : State) : Bool :=
  match s.cfg.bufBytes with
  | none   => false
  | some n => 8 * n < s.pcur.pos + 14

/-- PUT's writes on the state: the buffer and the cursor (R141). -/
def State.packNext (s : State) (w : Codeword) : Option State :=
  (packWord s.pbuf s.pcur w).map fun buf => s.setPacker buf s.pcur.advance

/-- GET's read and cursor advance on the state (R145). -/
def State.unpackNext (s : State) : Option (Codeword × State) :=
  (unpackWord s.ubuf s.ucur).map fun w => (w, s.setUcur s.ucur.advance)

end Sys2Proof.Machine
end

