-- ==== Sys2Proof/Machine/Flags.lean ====
section
/-! DEFINITION. The condition flags, the status register and the host's read-only views (spec 10 R32 to R36). -/

namespace Sys2Proof.Machine

/-- The bits that remain in the unpacker: `max(0, 8·len(UBUF) − (8·UB + UO))` (R34, R147). -/
def State.rem (s : State) : Nat := 8 * s.ubuf.length - s.ucur.pos

/-- `UAVAIL`: at least 7 bits remain (R34). -/
def State.uavail (s : State) : Bool := 7 ≤ s.rem

/-- `UPAIR`: at least 14 bits remain (R34). -/
def State.upair (s : State) : Bool := 14 ≤ s.rem

/-- `STATUS = {F_OVF, F_UND, F_OPR, F_ILL, 0, UPAIR, UAVAIL, 1}`, bit 7 down to bit 0; `READY` is hardwired 1 and
bit 3 reads 0 (R32, R36, R149). -/
def State.status (s : State) : Byte :=
  BitVec.ofBool s.fOvf ++ BitVec.ofBool s.fUnd ++ BitVec.ofBool s.fOpr ++ BitVec.ofBool s.fIll ++
  0#1 ++ BitVec.ofBool s.upair ++ BitVec.ofBool s.uavail ++ 1#1

/-- `PLEN = len(PBUF)` (R33). -/
def State.plen (s : State) : Nat := s.pbuf.length

/-- `ULEN = len(UBUF)` (R33). -/
def State.ulen (s : State) : Nat := s.ubuf.length

/-- Everything the host can read between commands without changing any state (R33). -/
structure HostView where
  pcur   : Cursor
  ucur   : Cursor
  plen   : Nat
  ulen   : Nat
  pbuf   : Memory
  status : Byte
  deriving DecidableEq, Repr

/-- The host's views of a state (R33). -/
def State.hostView (s : State) : HostView :=
  { pcur := s.pcur, ucur := s.ucur, plen := s.plen, ulen := s.ulen, pbuf := s.pbuf, status := s.status }

end Sys2Proof.Machine
end

