-- ==== Sys2Proof/Machine/Operands.lean ====
section
/-! DEFINITION. How operands are taken apart and results put together (spec 30 R81 to R83; 43 R163). -/

namespace Sys2Proof.Machine

/-- `zext_8`: a result narrower than 8 bits is zero-extended into `res` (R12, R81). -/
def zext8 {k : Nat} (v : BitVec k) : Byte := v.setWidth 8

/-- `hi = b >> 4 = b[7:4]` (R83, R163). -/
def highNibble (b : Byte) : Nibble := b.extractLsb' 4 4

/-- `lo = b & 0xF = b[3:0]` (R83, R163). -/
def lowNibble (b : Byte) : Nibble := b.extractLsb' 0 4

/-- `(n1 << 4) | n2`, `n1` in the high half (R83, R163). -/
def mergeNibbles (n1 n2 : Nibble) : Byte := (zext8 n1 <<< 4) ||| zext8 n2

end Sys2Proof.Machine
end

