-- ==== Sys2Proof/Machine/BitStream.lean ====
section
/-! DEFINITION. PUT, GET, PCLR and STAT (spec 42 R140 to R151). -/

namespace Sys2Proof.Machine

/-- PUT: Overflow before anything is written, else the word at the packer's cursor (R141, R143). -/
def execPut (w : Codeword) (s : State) : Outcome :=
  if s.putOverflows then .next (s.raise .overflow)
  else
    match s.packNext w with
    | none   => .fault (.bufferBounds s.pcur.byte)
    | some t => .next (t.respondOk 0x00)

/-- GET: Underflow when fewer than 7 bits remain, else the word at the unpacker's cursor (R145, R147). -/
def execGet (s : State) : Outcome :=
  if s.rem < 7 then .next (s.raise .underflow)
  else
    match s.unpackNext with
    | none        => .fault (.bufferBounds s.ucur.byte)
    | some (w, t) => .next (t.respondOk (zext8 w))

/-- PCLR: `PBUF <- empty; PCUR <- (0, 0)`; fault bits stay (R148). -/
def execPclr (s : State) : Outcome := .next ((s.setPacker [] { byte := 0, off := 0 }).respondOk 0x00)

/-- STAT: `res <- STATUS`; nothing is cleared (R149). -/
def execStat (s : State) : Outcome := .next (s.respondOk s.status)

end Sys2Proof.Machine
end

