-- ==== Sys2Proof/Machine/BlockCodec.lean ====
section
/-! DEFINITION. ENC, SYN, ERR and DEC: pure functions of the operand and the tables (spec 41 R120 to R126). -/

namespace Sys2Proof.Machine

/-- ENC: `res <- zext_8(ENC_ROM[n])` (R121). -/
def execEnc (n : Nibble) (s : State) : Outcome := .next (s.respondOk (zext8 (s.rom.encAt n)))

/-- SYN: `res <- zext_8(SYN_ROM[c])` (R123). -/
def execSyn (c : Codeword) (s : State) : Outcome := .next (s.respondOk (zext8 (s.rom.synAt c)))

/-- ERR: the error mask of a syndrome, a function and no table (R125, 90 C2). -/
def execErr (y : Syndrome) (s : State) : Outcome := .next (s.respondOk (zext8 (errorMask y)))

/-- DEC: `res <- zext_8(DEC_ROM[c])`, with no indication of a correction (R126, 90 C5). -/
def execDec (c : Codeword) (s : State) : Outcome := .next (s.respondOk (zext8 (s.rom.decAt c)))

end Sys2Proof.Machine
end

