-- ==== Sys2Proof/Machine/DataCodec.lean ====
section
/-! DEFINITION. ENCB and DECB, the per-byte bodies of DataCodec, each atomic (spec 43 R160 to R163, 60 R189). -/

namespace Sys2Proof.Machine

/-- ENCB: room for both words is checked first; then the codewords of the high and of the low nibble are put, in
that order (R161). -/
def execEncb (b : Byte) (s : State) : Outcome :=
  if s.pairOverflows then .next (s.raise .overflow)
  else
    match s.packNext (s.rom.encAt (highNibble b)) with
    | none   => .fault (.bufferBounds s.pcur.byte)
    | some t =>
      match t.packNext (s.rom.encAt (lowNibble b)) with
      | none   => .fault (.bufferBounds t.pcur.byte)
      | some u => .next (u.respondOk 0x00)

/-- DECB: both words must be there, checked first; then two words are taken, each decoded, and merged, the first
word giving the high nibble (R162). -/
def execDecb (s : State) : Outcome :=
  if s.rem < 14 then .next (s.raise .underflow)
  else
    match s.unpackNext with
    | none         => .fault (.bufferBounds s.ucur.byte)
    | some (w1, t) =>
      match t.unpackNext with
      | none         => .fault (.bufferBounds t.ucur.byte)
      | some (w2, u) => .next (u.respondOk (mergeNibbles (s.rom.decAt w1) (s.rom.decAt w2)))

end Sys2Proof.Machine
end

