-- ==== Sys2Proof/Machine/Parity.lean ====
section
/-! DEFINITION. INIT and PAR (spec 40 R101, R106). -/

namespace Sys2Proof.Machine

/-- INIT: no state is written, `ok(0x00)`; the tables hold their values from reset on (R106, R36). -/
def execInit (s : State) : Outcome := .next (s.respondOk 0x00)

/-- PAR: `res <- zext_8(PAR_ROM[x])` (R101). -/
def execPar (x : Byte) (s : State) : Outcome := .next (s.respondOk (zext8 (s.rom.parAt x)))

end Sys2Proof.Machine
end

