-- ==== Sys2Proof/Machine/Dispatch.lean ====
section
/-! DEFINITION. The meaning of every command, one arm each (spec 00 R4, 30 R82). -/

namespace Sys2Proof.Machine

def exec (i : Instr) (s : State) : Host.Outcome State Fault Refusal :=
  match i with
  | .init => Sys2Proof.Machine.execInit s
  | .par x => Sys2Proof.Machine.execPar x s
  | .enc n => Sys2Proof.Machine.execEnc n s
  | .syn c => Sys2Proof.Machine.execSyn c s
  | .err y => Sys2Proof.Machine.execErr y s
  | .dec c => Sys2Proof.Machine.execDec c s
  | .put w => Sys2Proof.Machine.execPut w s
  | .get => Sys2Proof.Machine.execGet s
  | .encb b => Sys2Proof.Machine.execEncb b s
  | .decb => Sys2Proof.Machine.execDecb s
  | .pclr => Sys2Proof.Machine.execPclr s
  | .stat => Sys2Proof.Machine.execStat s

end Sys2Proof.Machine
end

