-- ==== Sys2Proof/Machine/Port.lean ====
section
/-! DEFINITION. The command port and the host actions: what one input does to the core (spec 30 R91; 60 R186, R196 to
R199; 70 R210). -/

namespace Sys2Proof.Machine

/-- Issue one command word: a rejected word raises its fault, a command has its meaning (R91). -/
def runCommand (w : Cmd) (s : State) : Outcome :=
  match decode w with
  | .command i => exec i s
  | .reject k  => .next (s.raise k)

/-- `HOST_LOAD bytes, (B, O)`: refused with nothing changed when `O > 7` or the bytes do not fit; else
`UBUF <- bytes; UCUR <- (B, O)` (R197). No fault bit is ever set. -/
def hostLoad (bytes : Memory) (b o : Nat) (s : State) : State :=
  if h : o < 8 then
    if Memory.wf s.cfg bytes then (s.setUnpacker bytes { byte := b, off := ⟨o, h⟩ }).reply (.hostLoad true)
    else s.reply (.hostLoad false)
  else s.reply (.hostLoad false)

/-- `HOST_READ`: the whole of PBUF, and PCUR; no state of the core changes (R198). -/
def hostRead (s : State) : State := s.reply (.hostRead s.pbuf s.pcur)

/-- The reset event: every piece of state at its reset value; the configuration and the inputs still to come are
not the core's state (R210, log entry 5). -/
def hardReset (s : State) : State := { State.resetWith s.cfg with input := s.input }

/-- What one input does (R15). -/
def runInput (e : Input) (s : State) : Outcome :=
  match e with
  | .command w            => runCommand w s
  | .hostLoad bytes b o   => .next (hostLoad bytes b o s)
  | .hostRead             => .next (hostRead s)
  | .reset                => .next (hardReset s)

/-- The word that stands for an instruction of the opcode table on the command port (log entry 10). -/
def tableInput (w : Nat) : Input := .command (BitVec.ofNat 12 w)

end Sys2Proof.Machine
end

