-- ==== Sys2Proof/Machine/Step.lean ====
section
/-! DEFINITION. One step: the oldest pending input is performed, or the core idles (spec 00 R15; 60 R196, R204; 70 R222). -/

namespace Sys2Proof.Machine

/-- One atomic step (R15). With no input pending the core waits, and all state survives (R204, log entry 4). -/
def step (s : State) : Host.Outcome State Fault Refusal :=
  match s.takeInput with
  | none        => .next s
  | some (e, t) => runInput e t

/-- `s` with the command word `w` as the host's next input, so that the very next step runs it (log entries 2
and 10). -/
def State.withFetchWord (s : State) (_nbits w : Nat) : State := s.withInput (tableInput w)

end Sys2Proof.Machine
end

