-- ==== Sys2Proof/Laws/State.lean ====
section
/-! SUPPORT. One lemma per field per update of the state, each true by unfolding, so that no proof unfolds an update
(spec 00 R13; 60 R186). -/

namespace Sys2Proof.Machine

@[simp] theorem State.respond_cfg (s : State) (r : Response) : (s.respond r).cfg = s.cfg := rfl
@[simp] theorem State.respond_rom (s : State) (r : Response) : (s.respond r).rom = s.rom := rfl
@[simp] theorem State.respond_pbuf (s : State) (r : Response) : (s.respond r).pbuf = s.pbuf := rfl
@[simp] theorem State.respond_pcur (s : State) (r : Response) : (s.respond r).pcur = s.pcur := rfl
@[simp] theorem State.respond_ubuf (s : State) (r : Response) : (s.respond r).ubuf = s.ubuf := rfl
@[simp] theorem State.respond_ucur (s : State) (r : Response) : (s.respond r).ucur = s.ucur := rfl
@[simp] theorem State.respond_fIll (s : State) (r : Response) : (s.respond r).fIll = s.fIll := rfl
@[simp] theorem State.respond_fOpr (s : State) (r : Response) : (s.respond r).fOpr = s.fOpr := rfl
@[simp] theorem State.respond_fUnd (s : State) (r : Response) : (s.respond r).fUnd = s.fUnd := rfl
@[simp] theorem State.respond_fOvf (s : State) (r : Response) : (s.respond r).fOvf = s.fOvf := rfl
@[simp] theorem State.respond_input (s : State) (r : Response) : (s.respond r).input = s.input := rfl
@[simp] theorem State.respond_output (s : State) (r : Response) : (s.respond r).output = some (.response r) := rfl

@[simp] theorem State.respondOk_cfg (s : State) (res : Byte) : (s.respondOk res).cfg = s.cfg := rfl
@[simp] theorem State.respondOk_rom (s : State) (res : Byte) : (s.respondOk res).rom = s.rom := rfl
@[simp] theorem State.respondOk_pbuf (s : State) (res : Byte) : (s.respondOk res).pbuf = s.pbuf := rfl
@[simp] theorem State.respondOk_pcur (s : State) (res : Byte) : (s.respondOk res).pcur = s.pcur := rfl
@[simp] theorem State.respondOk_ubuf (s : State) (res : Byte) : (s.respondOk res).ubuf = s.ubuf := rfl
@[simp] theorem State.respondOk_ucur (s : State) (res : Byte) : (s.respondOk res).ucur = s.ucur := rfl
@[simp] theorem State.respondOk_fIll (s : State) (res : Byte) : (s.respondOk res).fIll = s.fIll := rfl
@[simp] theorem State.respondOk_fOpr (s : State) (res : Byte) : (s.respondOk res).fOpr = s.fOpr := rfl
@[simp] theorem State.respondOk_fUnd (s : State) (res : Byte) : (s.respondOk res).fUnd = s.fUnd := rfl
@[simp] theorem State.respondOk_fOvf (s : State) (res : Byte) : (s.respondOk res).fOvf = s.fOvf := rfl
@[simp] theorem State.respondOk_input (s : State) (res : Byte) : (s.respondOk res).input = s.input := rfl
@[simp] theorem State.respondOk_output (s : State) (res : Byte) : (s.respondOk res).output = some (.response (.ok res)) := rfl

@[simp] theorem State.raise_cfg (s : State) (k : FaultKind) : (s.raise k).cfg = s.cfg := rfl
@[simp] theorem State.raise_rom (s : State) (k : FaultKind) : (s.raise k).rom = s.rom := rfl
@[simp] theorem State.raise_pbuf (s : State) (k : FaultKind) : (s.raise k).pbuf = s.pbuf := rfl
@[simp] theorem State.raise_pcur (s : State) (k : FaultKind) : (s.raise k).pcur = s.pcur := rfl
@[simp] theorem State.raise_ubuf (s : State) (k : FaultKind) : (s.raise k).ubuf = s.ubuf := rfl
@[simp] theorem State.raise_ucur (s : State) (k : FaultKind) : (s.raise k).ucur = s.ucur := rfl
@[simp] theorem State.raise_fIll (s : State) (k : FaultKind) : (s.raise k).fIll = (s.fIll || k == .illegalOp) := rfl
@[simp] theorem State.raise_fOpr (s : State) (k : FaultKind) : (s.raise k).fOpr = (s.fOpr || k == .operandRange) := rfl
@[simp] theorem State.raise_fUnd (s : State) (k : FaultKind) : (s.raise k).fUnd = (s.fUnd || k == .underflow) := rfl
@[simp] theorem State.raise_fOvf (s : State) (k : FaultKind) : (s.raise k).fOvf = (s.fOvf || k == .overflow) := rfl
@[simp] theorem State.raise_input (s : State) (k : FaultKind) : (s.raise k).input = s.input := rfl
@[simp] theorem State.raise_output (s : State) (k : FaultKind) : (s.raise k).output = some (.response (.fault (faultCode k))) := rfl

@[simp] theorem State.setPacker_cfg (s : State) (buf : Memory) (c : Cursor) : (s.setPacker buf c).cfg = s.cfg := rfl
@[simp] theorem State.setPacker_rom (s : State) (buf : Memory) (c : Cursor) : (s.setPacker buf c).rom = s.rom := rfl
@[simp] theorem State.setPacker_pbuf (s : State) (buf : Memory) (c : Cursor) : (s.setPacker buf c).pbuf = buf := rfl
@[simp] theorem State.setPacker_pcur (s : State) (buf : Memory) (c : Cursor) : (s.setPacker buf c).pcur = c := rfl
@[simp] theorem State.setPacker_ubuf (s : State) (buf : Memory) (c : Cursor) : (s.setPacker buf c).ubuf = s.ubuf := rfl
@[simp] theorem State.setPacker_ucur (s : State) (buf : Memory) (c : Cursor) : (s.setPacker buf c).ucur = s.ucur := rfl
@[simp] theorem State.setPacker_fIll (s : State) (buf : Memory) (c : Cursor) : (s.setPacker buf c).fIll = s.fIll := rfl
@[simp] theorem State.setPacker_fOpr (s : State) (buf : Memory) (c : Cursor) : (s.setPacker buf c).fOpr = s.fOpr := rfl
@[simp] theorem State.setPacker_fUnd (s : State) (buf : Memory) (c : Cursor) : (s.setPacker buf c).fUnd = s.fUnd := rfl
@[simp] theorem State.setPacker_fOvf (s : State) (buf : Memory) (c : Cursor) : (s.setPacker buf c).fOvf = s.fOvf := rfl
@[simp] theorem State.setPacker_input (s : State) (buf : Memory) (c : Cursor) : (s.setPacker buf c).input = s.input := rfl
@[simp] theorem State.setPacker_output (s : State) (buf : Memory) (c : Cursor) : (s.setPacker buf c).output = s.output := rfl

@[simp] theorem State.setUcur_cfg (s : State) (c : Cursor) : (s.setUcur c).cfg = s.cfg := rfl
@[simp] theorem State.setUcur_rom (s : State) (c : Cursor) : (s.setUcur c).rom = s.rom := rfl
@[simp] theorem State.setUcur_pbuf (s : State) (c : Cursor) : (s.setUcur c).pbuf = s.pbuf := rfl
@[simp] theorem State.setUcur_pcur (s : State) (c : Cursor) : (s.setUcur c).pcur = s.pcur := rfl
@[simp] theorem State.setUcur_ubuf (s : State) (c : Cursor) : (s.setUcur c).ubuf = s.ubuf := rfl
@[simp] theorem State.setUcur_ucur (s : State) (c : Cursor) : (s.setUcur c).ucur = c := rfl
@[simp] theorem State.setUcur_fIll (s : State) (c : Cursor) : (s.setUcur c).fIll = s.fIll := rfl
@[simp] theorem State.setUcur_fOpr (s : State) (c : Cursor) : (s.setUcur c).fOpr = s.fOpr := rfl
@[simp] theorem State.setUcur_fUnd (s : State) (c : Cursor) : (s.setUcur c).fUnd = s.fUnd := rfl
@[simp] theorem State.setUcur_fOvf (s : State) (c : Cursor) : (s.setUcur c).fOvf = s.fOvf := rfl
@[simp] theorem State.setUcur_input (s : State) (c : Cursor) : (s.setUcur c).input = s.input := rfl
@[simp] theorem State.setUcur_output (s : State) (c : Cursor) : (s.setUcur c).output = s.output := rfl

@[simp] theorem State.setUnpacker_cfg (s : State) (buf : Memory) (c : Cursor) : (s.setUnpacker buf c).cfg = s.cfg := rfl
@[simp] theorem State.setUnpacker_rom (s : State) (buf : Memory) (c : Cursor) : (s.setUnpacker buf c).rom = s.rom := rfl
@[simp] theorem State.setUnpacker_pbuf (s : State) (buf : Memory) (c : Cursor) : (s.setUnpacker buf c).pbuf = s.pbuf := rfl
@[simp] theorem State.setUnpacker_pcur (s : State) (buf : Memory) (c : Cursor) : (s.setUnpacker buf c).pcur = s.pcur := rfl
@[simp] theorem State.setUnpacker_ubuf (s : State) (buf : Memory) (c : Cursor) : (s.setUnpacker buf c).ubuf = buf := rfl
@[simp] theorem State.setUnpacker_ucur (s : State) (buf : Memory) (c : Cursor) : (s.setUnpacker buf c).ucur = c := rfl
@[simp] theorem State.setUnpacker_fIll (s : State) (buf : Memory) (c : Cursor) : (s.setUnpacker buf c).fIll = s.fIll := rfl
@[simp] theorem State.setUnpacker_fOpr (s : State) (buf : Memory) (c : Cursor) : (s.setUnpacker buf c).fOpr = s.fOpr := rfl
@[simp] theorem State.setUnpacker_fUnd (s : State) (buf : Memory) (c : Cursor) : (s.setUnpacker buf c).fUnd = s.fUnd := rfl
@[simp] theorem State.setUnpacker_fOvf (s : State) (buf : Memory) (c : Cursor) : (s.setUnpacker buf c).fOvf = s.fOvf := rfl
@[simp] theorem State.setUnpacker_input (s : State) (buf : Memory) (c : Cursor) : (s.setUnpacker buf c).input = s.input := rfl
@[simp] theorem State.setUnpacker_output (s : State) (buf : Memory) (c : Cursor) : (s.setUnpacker buf c).output = s.output := rfl

@[simp] theorem State.reply_cfg (s : State) (o : Output) : (s.reply o).cfg = s.cfg := rfl
@[simp] theorem State.reply_rom (s : State) (o : Output) : (s.reply o).rom = s.rom := rfl
@[simp] theorem State.reply_pbuf (s : State) (o : Output) : (s.reply o).pbuf = s.pbuf := rfl
@[simp] theorem State.reply_pcur (s : State) (o : Output) : (s.reply o).pcur = s.pcur := rfl
@[simp] theorem State.reply_ubuf (s : State) (o : Output) : (s.reply o).ubuf = s.ubuf := rfl
@[simp] theorem State.reply_ucur (s : State) (o : Output) : (s.reply o).ucur = s.ucur := rfl
@[simp] theorem State.reply_fIll (s : State) (o : Output) : (s.reply o).fIll = s.fIll := rfl
@[simp] theorem State.reply_fOpr (s : State) (o : Output) : (s.reply o).fOpr = s.fOpr := rfl
@[simp] theorem State.reply_fUnd (s : State) (o : Output) : (s.reply o).fUnd = s.fUnd := rfl
@[simp] theorem State.reply_fOvf (s : State) (o : Output) : (s.reply o).fOvf = s.fOvf := rfl
@[simp] theorem State.reply_input (s : State) (o : Output) : (s.reply o).input = s.input := rfl
@[simp] theorem State.reply_output (s : State) (o : Output) : (s.reply o).output = some o := rfl

@[simp] theorem State.withInput_cfg (s : State) (e : Input) : (s.withInput e).cfg = s.cfg := rfl
@[simp] theorem State.withInput_rom (s : State) (e : Input) : (s.withInput e).rom = s.rom := rfl
@[simp] theorem State.withInput_pbuf (s : State) (e : Input) : (s.withInput e).pbuf = s.pbuf := rfl
@[simp] theorem State.withInput_pcur (s : State) (e : Input) : (s.withInput e).pcur = s.pcur := rfl
@[simp] theorem State.withInput_ubuf (s : State) (e : Input) : (s.withInput e).ubuf = s.ubuf := rfl
@[simp] theorem State.withInput_ucur (s : State) (e : Input) : (s.withInput e).ucur = s.ucur := rfl
@[simp] theorem State.withInput_fIll (s : State) (e : Input) : (s.withInput e).fIll = s.fIll := rfl
@[simp] theorem State.withInput_fOpr (s : State) (e : Input) : (s.withInput e).fOpr = s.fOpr := rfl
@[simp] theorem State.withInput_fUnd (s : State) (e : Input) : (s.withInput e).fUnd = s.fUnd := rfl
@[simp] theorem State.withInput_fOvf (s : State) (e : Input) : (s.withInput e).fOvf = s.fOvf := rfl
@[simp] theorem State.withInput_input (s : State) (e : Input) : (s.withInput e).input = e :: s.input := rfl
@[simp] theorem State.withInput_output (s : State) (e : Input) : (s.withInput e).output = s.output := rfl

/-- The sticky bits after a fault: the fault's own is 1, the others as before (R186). -/
@[simp] theorem State.raise_sticky (s : State) (k j : FaultKind) :
    (s.raise k).sticky j = (s.sticky j || k == j) := by cases j <;> rfl

@[simp] theorem State.respond_sticky (s : State) (r : Response) (j : FaultKind) :
    (s.respond r).sticky j = s.sticky j := by cases j <;> rfl
@[simp] theorem State.respondOk_sticky (s : State) (res : Byte) (j : FaultKind) :
    (s.respondOk res).sticky j = s.sticky j := by cases j <;> rfl
@[simp] theorem State.setPacker_sticky (s : State) (buf : Memory) (c : Cursor) (j : FaultKind) :
    (s.setPacker buf c).sticky j = s.sticky j := by cases j <;> rfl
@[simp] theorem State.setUcur_sticky (s : State) (c : Cursor) (j : FaultKind) :
    (s.setUcur c).sticky j = s.sticky j := by cases j <;> rfl
@[simp] theorem State.setUnpacker_sticky (s : State) (buf : Memory) (c : Cursor) (j : FaultKind) :
    (s.setUnpacker buf c).sticky j = s.sticky j := by cases j <;> rfl
@[simp] theorem State.reply_sticky (s : State) (o : Output) (j : FaultKind) :
    (s.reply o).sticky j = s.sticky j := by cases j <;> rfl
@[simp] theorem State.withInput_sticky (s : State) (e : Input) (j : FaultKind) :
    (s.withInput e).sticky j = s.sticky j := by cases j <;> rfl

end Sys2Proof.Machine
end

