-- ==== Sys2Proof/Laws/Stream.lean ====
section
/-! SUPPORT. Cursors as stream positions, and what the packer's writes and the unpacker's reads do to the stream of bits,
stated once (spec 20 R51 to R57; 42 R141 to R147). -/

namespace Sys2Proof.Machine

@[simp] theorem Cursor.pos_ofPos (p : Nat) : (Cursor.ofPos p).pos = p := by
  simp only [Cursor.pos, Cursor.ofPos]; omega

@[simp] theorem Cursor.ofPos_pos (c : Cursor) : Cursor.ofPos c.pos = c := by
  obtain ⟨b, o, h⟩ := c
  simp only [Cursor.pos, Cursor.ofPos, Cursor.mk.injEq, Fin.mk.injEq]
  omega

/-- A cursor is determined by its stream position. -/
theorem Cursor.ext_pos {c d : Cursor} (h : c.pos = d.pos) : c = d := by
  rw [← Cursor.ofPos_pos c, ← Cursor.ofPos_pos d, h]

/-- Both PUT and GET advance by exactly 7 bits (R144). -/
@[simp] theorem Cursor.pos_advance (c : Cursor) : c.advance.pos = c.pos + 7 := by
  obtain ⟨b, o, h⟩ := c
  simp only [Cursor.pos, Cursor.advance]
  omega

theorem Cursor.advance_eq (c : Cursor) : c.advance = Cursor.ofPos (c.pos + 7) := Cursor.ext_pos (by simp)

/-- The byte and the offset of a cursor from its position. -/
theorem Cursor.byte_eq (c : Cursor) : c.byte = c.pos / 8 := by
  have := c.off.isLt; simp only [Cursor.pos]; omega

theorem Cursor.off_eq (c : Cursor) : c.off.val = c.pos % 8 := by
  have := c.off.isLt; simp only [Cursor.pos]; omega

/-- Bit `r` of byte `q` is stream position `8·q + r` (R51). -/
theorem streamBit_at (buf : Memory) (q r : Nat) (h : r < 8) : streamBit buf (8 * q + r) = (buf.getD q 0).getLsbD r := by
  have hq : (8 * q + r) / 8 = q := by omega
  have hr : (8 * q + r) % 8 = r := by omega
  simp only [streamBit, hq, hr]

/-- There is no set bit beyond the end of a buffer. -/
theorem streamBit_beyond (buf : Memory) (p : Nat) (h : 8 * buf.length ≤ p) : streamBit buf p = false := by
  have : buf.length ≤ p / 8 := by omega
  simp [streamBit, this]

/-- Bit `r` of what PUT ORs into byte `B` (R142). -/
theorem lowPart_bit : ∀ (o : Fin 8) (r : Fin 8) (w : Codeword),
    (lowPart w o).getLsbD r.val = (decide (o.val ≤ r.val) && w.getLsbD (r.val - o.val)) := by decide +kernel

/-- Bit `r` of what PUT puts into byte `B + 1` (R142). -/
theorem highPart_bit : ∀ (o : Fin 8) (r : Fin 8) (w : Codeword),
    (highPart w o).getLsbD r.val = w.getLsbD (r.val + (8 - o.val)) := by decide +kernel

/-- The bytes after PUT's writes, byte by byte (R141, R142). -/
theorem packWord_getElem? (buf : Memory) (c : Cursor) (w : Codeword) (hlen : buf.length = (c.pos + 7) / 8) :
    ∃ out, packWord buf c w = some out ∧ out.length = (c.pos + 14) / 8 ∧
      ∀ q, out[q]? =
        if q = c.byte then some (buf.getD q 0 ||| lowPart w c.off)
        else if q = c.byte + 1 ∧ 2 ≤ c.off.val then some (highPart w c.off)
        else buf[q]? := by
  have ho := c.off.isLt
  by_cases h0 : c.off.val = 0
  · have hb : buf.length = c.byte := by simp only [Cursor.pos] at hlen; omega
    refine ⟨(buf ++ [0x00#8]).set c.byte (0x00#8 ||| lowPart w c.off), ?_, ?_, fun q => ?_⟩
    · simp [packWord, hb, h0]
    · simp [hb, Cursor.pos]; omega
    · by_cases hq : q = c.byte
      · simp [hq, hb]
      · simp only [hq, h0, List.getElem?_set_ne (Ne.symm hq), if_false]
        rcases Nat.lt_or_gt_of_ne hq with h | h
        · simp [List.getElem?_append, hb, h]
        · rw [List.getElem?_eq_none (by simp [hb]; omega), List.getElem?_eq_none (by omega)]; simp
  · have hb : buf.length = c.byte + 1 := by simp only [Cursor.pos] at hlen; omega
    refine ⟨(if 2 ≤ c.off.val then buf.set c.byte (buf.getD c.byte 0 ||| lowPart w c.off) ++ [highPart w c.off]
        else buf.set c.byte (buf.getD c.byte 0 ||| lowPart w c.off)), ?_, ?_, fun q => ?_⟩
    · simp [packWord, hb]
    · split <;> simp [hb, Cursor.pos] <;> omega
    · by_cases hq : q = c.byte
      · subst hq; split <;> simp [hb]
      · by_cases h2 : 2 ≤ c.off.val
        · simp only [hq, h2, if_true, if_false, and_true]
          by_cases hq1 : q = c.byte + 1
          · simp [hq1, hb]
          · simp only [hq1, if_false, List.getElem?_append, List.length_set, hb, List.getElem?_set_ne (Ne.symm hq)]
            split
            · rfl
            · have : 1 ≤ q - (c.byte + 1) := by omega
              rw [List.getElem?_eq_none (by simpa using this), List.getElem?_eq_none (by omega)]
        · simp [hq, h2, List.getElem?_set_ne (Ne.symm hq)]

/-- The stream after PUT's writes (R52, R142): the word's bits at the cursor, every other position as before. -/
theorem packWord_streamBit (buf : Memory) (c : Cursor) (w : Codeword) (hlen : buf.length = (c.pos + 7) / 8)
    (hzero : ∀ p, c.pos ≤ p → streamBit buf p = false) :
    ∃ out, packWord buf c w = some out ∧ out.length = (c.pos + 14) / 8 ∧
      ∀ p, streamBit out p = if c.pos ≤ p ∧ p < c.pos + 7 then w.getLsbD (p - c.pos) else streamBit buf p := by
  obtain ⟨out, hout, hl, hget⟩ := packWord_getElem? buf c w hlen
  refine ⟨out, hout, hl, fun p => ?_⟩
  have ho := c.off.isLt
  have hr : p % 8 < 8 := Nat.mod_lt _ (by decide)
  have hp : p = 8 * (p / 8) + p % 8 := by omega
  have hb := hget (p / 8)
  have hz := hzero p
  simp only [streamBit, List.getD_eq_getElem?_getD, hb, Cursor.pos] at hz ⊢
  by_cases h1 : p / 8 = c.byte
  · simp only [h1, if_true, Option.getD_some, BitVec.getLsbD_or]
    rw [lowPart_bit c.off ⟨p % 8, hr⟩ w]
    simp only [h1] at hz
    by_cases hin : c.off.val ≤ p % 8
    · have : 8 * c.byte + c.off.val ≤ p := by omega
      have e : p - (8 * c.byte + c.off.val) = p % 8 - c.off.val := by omega
      simp only [hz this, this, hin, e, decide_true, Bool.false_or, Bool.true_and, true_and]
      split
      · rfl
      · exact BitVec.getLsbD_of_ge _ _ (by omega)
    · have : ¬ 8 * c.byte + c.off.val ≤ p := by omega
      simp [this, hin]
  · simp only [h1, if_false]
    by_cases h2 : p / 8 = c.byte + 1 ∧ 2 ≤ c.off.val
    · simp only [h2, and_self, if_true, Option.getD_some]
      rw [highPart_bit c.off ⟨p % 8, hr⟩ w]
      have hle : 8 * c.byte + c.off.val ≤ p := by omega
      have e : p - (8 * c.byte + c.off.val) = p % 8 + (8 - c.off.val) := by omega
      have hz' := hz hle
      rw [h2.1] at hz'
      simp only [hle, e, true_and]
      split
      · rfl
      · rw [hz']; exact BitVec.getLsbD_of_ge _ _ (by omega)
    · have : ¬ (8 * c.byte + c.off.val ≤ p ∧ p < 8 * c.byte + c.off.val + 7) := by omega
      simp only [h2, if_false, this]

/-- Bit `i` of the word GET takes from bytes `x` and `y` (R146). -/
theorem unpackBits : ∀ (o : Fin 8) (i : Fin 7) (x y : Byte),
    ((((x.setWidth 16 >>> o.val) ||| (y.setWidth 16 <<< (8 - o.val))) &&& 0x7F#16).setWidth 7).getLsbD i.val =
      if i.val + o.val < 8 then x.getLsbD (i.val + o.val) else y.getLsbD (i.val + o.val - 8) := by
  intro o i x y
  have := o.isLt
  have := i.isLt
  have hm : (0x7F#16).getLsbD i.val = true := by revert i; decide
  simp only [BitVec.getLsbD_setWidth, BitVec.getLsbD_and, BitVec.getLsbD_or, BitVec.getLsbD_ushiftRight,
    BitVec.getLsbD_shiftLeft, hm, Bool.and_true]
  by_cases h : i.val + o.val < 8
  · have hs : ¬ (8 - o.val ≤ i.val) := by omega
    simp [h, show i.val < 16 by omega, show i.val < 8 - o.val by omega, Nat.add_comm o.val]
    intro h'; omega
  · have hx : x.getLsbD (o.val + i.val) = false := BitVec.getLsbD_of_ge _ _ (by omega)
    have e : i.val - (8 - o.val) = i.val + o.val - 8 := by omega
    simp [h, hx, e, show i.val < 16 by omega, show ¬ i.val < 8 - o.val by omega]
    intro h'; omega

/-- GET's reads exist when 7 bits remain, and give the bits of the stream at the cursor (R52, R146, R147). -/
theorem unpackWord_streamBit (buf : Memory) (c : Cursor) (h : c.pos + 7 ≤ 8 * buf.length) :
    ∃ w, unpackWord buf c = some w ∧ ∀ i < 7, w.getLsbD i = streamBit buf (c.pos + i) := by
  have ho := c.off.isLt
  simp only [Cursor.pos] at h ⊢
  have hx : buf[c.byte]? = some (buf.getD c.byte 0) := by
    have : c.byte < buf.length := by omega
    simp [this]
  by_cases h2 : 2 ≤ c.off.val
  · have hy : buf[c.byte + 1]? = some (buf.getD (c.byte + 1) 0) := by
      have : c.byte + 1 < buf.length := by omega
      simp [this]
    refine ⟨_, by simp only [unpackWord, hx, hy, h2, if_true]; rfl, fun i hi => ?_⟩
    rw [unpackBits c.off ⟨i, hi⟩]
    split
    · rename_i hlt
      rw [show 8 * c.byte + c.off.val + i = 8 * c.byte + (i + c.off.val) by omega, streamBit_at _ _ _ hlt]
    · rename_i hlt
      simp only at hlt ⊢
      rw [show 8 * c.byte + c.off.val + i = 8 * (c.byte + 1) + (i + c.off.val - 8) by omega,
        streamBit_at _ _ _ (by omega)]
  · refine ⟨_, by simp only [unpackWord, hx, h2, if_false]; rfl, fun i hi => ?_⟩
    have hb := unpackBits c.off ⟨i, hi⟩ (buf.getD c.byte 0) 0#8
    have hlt : i + c.off.val < 8 := by omega
    simp only [hlt, if_true] at hb
    rw [show 8 * c.byte + c.off.val + i = 8 * c.byte + (i + c.off.val) by omega, streamBit_at _ _ _ hlt, ← hb]
    simp

end Sys2Proof.Machine
end

