-- ==== Sys2Proof/Machine/Session.lean ====
section
/-! DEFINITION. The pseudo-operations: what a host does with the core to encode and decode whole buffers (spec 30 R90; 42
R150; 43 R166, R167, R168, R171). Each is a sequence of steps of the machine; `none` means that a command of the
sequence was refused, and then the sequence has no result (R166). -/

namespace Sys2Proof.Machine

/-- The host performs one input now. -/
def issue (e : Input) (s : State) : Outcome := step (s.withInput e)

/-- The host issues a command and goes on only if the response is `ok(res)`. -/
def issueOk (i : Instr) (s : State) : Option (State × Byte) :=
  match issue (.command (encode i)) s with
  | .next t =>
    match t.output with
    | some (.response (.ok res)) => some (t, res)
    | _ => none
  | _ => none

/-- HOST_LOAD at cursor `(0, 0)`, going on only if it is accepted (R167, R197). -/
def issueLoad (bytes : Memory) (s : State) : Option State :=
  match issue (.hostLoad bytes 0 0) s with
  | .next t =>
    match t.output with
    | some (.hostLoad true) => some t
    | _ => none
  | _ => none

/-- HOST_READ (R198). -/
def issueRead (s : State) : Option (State × Memory) :=
  match issue .hostRead s with
  | .next t =>
    match t.output with
    | some (.hostRead bytes _) => some (t, bytes)
    | _ => none
  | _ => none

/-- `PUT w0, PUT w1, …` (R150). -/
def putAll : List Codeword → State → Option State
  | [], s => some s
  | w :: ws, s => (issueOk (.put w) s).bind fun r => putAll ws r.1

/-- `k` successive GETs and the words they return, in order (R150). -/
def getN : Nat → State → Option (State × List Codeword)
  | 0, s => some (s, [])
  | k + 1, s =>
    (issueOk .get s).bind fun r => (getN k r.1).map fun q => (q.1, r.2.setWidth 7 :: q.2)

/-- `ENCB b0, ENCB b1, …` (R166). -/
def encbAll : List Byte → State → Option State
  | [], s => some s
  | b :: bs, s => (issueOk (.encb b) s).bind fun r => encbAll bs r.1

/-- ENCODE_DATA: PCLR, one ENCB per byte, HOST_READ (R166). -/
def encodeData (bytes : List Byte) (s : State) : Option (State × Memory) :=
  (issueOk .pclr s).bind fun r => (encbAll bytes r.1).bind issueRead

/-- `while UAVAIL = 1: append GET to W`, at most `fuel` times round (R167). -/
def getLoop : Nat → State → Option (State × List Codeword)
  | 0, s => some (s, [])
  | fuel + 1, s =>
    if s.uavail then
      (issueOk .get s).bind fun r => (getLoop fuel r.1).map fun q => (q.1, r.2.setWidth 7 :: q.2)
    else some (s, [])

/-- `out[k] <- (DEC(W[2k]) << 4) | DEC(W[2k + 1])`; an unpaired last word is dropped (R167, 90 C9). -/
def decodePairs : List Codeword → State → Option (State × List Byte)
  | w1 :: w2 :: rest, s =>
    (issueOk (.dec w1) s).bind fun r1 => (issueOk (.dec w2) r1.1).bind fun r2 =>
      (decodePairs rest r2.1).map fun q => (q.1, ((r1.2 <<< 4) ||| r2.2) :: q.2)
  | _, s => some (s, [])

/-- DECODE_DATA: HOST_LOAD, GET while UAVAIL, then DEC by pairs (R167). Every GET takes 7 bits, so `8·L'` rounds
are more than enough. -/
def decodeData (bytes : Memory) (s : State) : Option (State × List Byte) :=
  (issueLoad bytes s).bind fun t => (getLoop (8 * bytes.length) t).bind fun r => decodePairs r.2 r.1

/-- `while UPAIR = 1: append DECB to out` (R171). -/
def decbLoop : Nat → State → Option (State × List Byte)
  | 0, s => some (s, [])
  | fuel + 1, s =>
    if s.upair then
      (issueOk .decb s).bind fun r => (decbLoop fuel r.1).map fun q => (q.1, r.2 :: q.2)
    else some (s, [])

/-- DECODE_DATA in its DECB form (R171). -/
def decodeDataPairs (bytes : Memory) (s : State) : Option (State × List Byte) :=
  (issueLoad bytes s).bind fun t => decbLoop (8 * bytes.length) t

/-- The bytes of a text whose characters are all 7-bit ASCII, one byte each (R168, 93 K4); other text has no byte
form in the spec. -/
def textBytes : List Char → Option (List Byte)
  | [] => some []
  | c :: cs => if c.toNat < 128 then (textBytes cs).map (BitVec.ofNat 8 c.toNat :: ·) else none

/-- Bytes read as 7-bit ASCII text; the empty buffer is the empty text, no terminator (R168). -/
def bytesText : List Byte → Option (List Char)
  | [] => some []
  | b :: bs => if b.toNat < 128 then (bytesText bs).map (Char.ofNat b.toNat :: ·) else none

/-- ENCODE_STRING, the host's text adapter (R90, R168). -/
def encodeString (text : List Char) (s : State) : Option (State × Memory) :=
  (textBytes text).bind fun bytes => encodeData bytes s

/-- DECODE_STRING, the host's text adapter (R90, R168). -/
def decodeString (bytes : Memory) (s : State) : Option (State × List Char) :=
  (decodeData bytes s).bind fun r => (bytesText r.2).map fun text => (r.1, text)

end Sys2Proof.Machine
end

