-- ==== Sys2Proof/Safety.lean ====
section
/-! DEFINITION. What claims call a good state: the invariants of the core and a run without a fault (spec 10 R23, R29 to
R31, R37; 60 R187; 70 R222). -/

namespace Sys2Proof.Machine

/-- The tables hold the generated values (R37, R38). -/
abbrev State.RomOk (s : State) : Prop := s.rom = Tables.generated

/-- The packer invariant R31: the buffer has exactly the bytes the cursor's position needs, and every bit at or
beyond the position is 0. -/
abbrev State.PackerOk (s : State) : Prop :=
  s.pbuf.length = (s.pcur.pos + 7) / 8 ∧
  ∀ p < 8 * s.pbuf.length, s.pcur.pos ≤ p → streamBit s.pbuf p = false

/-- The capacity bounds: `len(PBUF) ≤ BUF_BYTES`, `len(UBUF) ≤ BUF_BYTES`, `PB ≤ BUF_BYTES` when `BUF_BYTES` is a
number (R23, R29, R30). -/
abbrev State.CapacityOk (s : State) : Prop :=
  Memory.wf s.cfg s.pbuf = true ∧ Memory.wf s.cfg s.ubuf = true ∧ ∀ n, s.cfg.bufBytes = some n → s.pcur.byte ≤ n

/-- The invariant of every reachable state. -/
abbrev State.Inv (s : State) : Prop := s.RomOk ∧ s.PackerOk ∧ s.CapacityOk

/-- A run went wrong when any of STATUS bits 7:4 is 1 (R187, R222). -/
def State.wentWrong (s : State) : Bool := s.status.extractLsb' 4 4 != 0

end Sys2Proof.Machine
end

