-- ==== Sys2Proof/Laws/Ops.lean ====
section
/-! SUPPORT. What the shared operations of PUT, GET, ENCB, DECB and the host actions can do, one lemma each, and that they keep
the buffers in form (spec 10 R29 to R31; 42 R141 to R147; 43 R161, R162). -/

namespace Sys2Proof.Machine

/-- PUT's check is the bit form of R143: it fails exactly when `8·B + o + 7 > 8·BUF_BYTES`. -/
theorem putOverflows_iff (s : State) :
    s.putOverflows = true ↔ ∃ n, s.cfg.bufBytes = some n ∧ 8 * n < s.pcur.pos + 7 := by
  have ho := s.pcur.off.isLt
  simp only [State.putOverflows]
  cases s.cfg.bufBytes with
  | none => simp
  | some n =>
    simp only [Option.some.injEq, exists_eq_left', decide_eq_true_eq, Cursor.pos]
    split <;> omega

/-- ENCB's check as a proposition (R161). -/
theorem pairOverflows_iff (s : State) :
    s.pairOverflows = true ↔ ∃ n, s.cfg.bufBytes = some n ∧ 8 * n < s.pcur.pos + 14 := by
  simp only [State.pairOverflows]
  cases s.cfg.bufBytes <;> simp

/-- Every bit at or beyond the cursor is 0, inside the buffer or not (R31). -/
theorem State.PackerOk.zero {s : State} (h : s.PackerOk) (p : Nat) (hp : s.pcur.pos ≤ p) :
    streamBit s.pbuf p = false := by
  by_cases hl : p < 8 * s.pbuf.length
  · exact h.2 p hl hp
  · exact streamBit_beyond _ _ (by omega)

/-- PUT's writes on a packer in form: they exist, put the word at the cursor, and leave the packer in form (R141,
R31). -/
theorem packNext_spec {s : State} (h : s.PackerOk) (w : Codeword) :
    ∃ buf, s.packNext w = some (s.setPacker buf s.pcur.advance) ∧
      (s.setPacker buf s.pcur.advance).PackerOk ∧
      (∀ q, buf[q]? =
        if q = s.pcur.byte then some (s.pbuf.getD q 0 ||| lowPart w s.pcur.off)
        else if q = s.pcur.byte + 1 ∧ 2 ≤ s.pcur.off.val then some (highPart w s.pcur.off)
        else s.pbuf[q]?) ∧
      ∀ p, streamBit buf p =
        if s.pcur.pos ≤ p ∧ p < s.pcur.pos + 7 then w.getLsbD (p - s.pcur.pos) else streamBit s.pbuf p := by
  obtain ⟨buf, hb, hl, hget⟩ := packWord_getElem? s.pbuf s.pcur w h.1
  obtain ⟨buf', hb', _, hbit⟩ := packWord_streamBit s.pbuf s.pcur w h.1 h.zero
  obtain rfl : buf = buf' := Option.some.inj (hb.symm.trans hb')
  refine ⟨buf, by simp [State.packNext, hb], ⟨by simpa using hl, fun p _ hp => ?_⟩, hget, hbit⟩
  simp only [State.setPacker_pcur, State.setPacker_pbuf, Cursor.pos_advance] at hp ⊢
  rw [hbit, if_neg (by omega)]
  exact h.zero p (by omega)

/-- PUT's writes on any state: if they exist they replace the packer's buffer and advance its cursor (R141). -/
theorem packNext_shape {s t : State} {w : Codeword} (h : s.packNext w = some t) :
    ∃ buf, t = s.setPacker buf s.pcur.advance := by
  simp only [State.packNext, Option.map_eq_some_iff] at h
  obtain ⟨buf, -, rfl⟩ := h
  exact ⟨buf, rfl⟩

/-- GET's read when 7 bits remain: it exists and gives the bits at the cursor, which advances (R145). -/
theorem unpackNext_spec {s : State} (h : 7 ≤ s.rem) :
    ∃ w, s.unpackNext = some (w, s.setUcur s.ucur.advance) ∧
      ∀ i < 7, w.getLsbD i = streamBit s.ubuf (s.ucur.pos + i) := by
  simp only [State.rem] at h
  obtain ⟨w, hw, hb⟩ := unpackWord_streamBit s.ubuf s.ucur (by omega)
  exact ⟨w, by simp [State.unpackNext, hw], hb⟩

/-- GET's read on any state: if it exists it advances the unpacker's cursor and changes nothing else (R145). -/
theorem unpackNext_shape {s t : State} {w : Codeword} (h : s.unpackNext = some (w, t)) :
    t = s.setUcur s.ucur.advance := by
  simp only [State.unpackNext, Option.map_eq_some_iff, Prod.mk.injEq] at h
  obtain ⟨_, -, -, rfl⟩ := h
  rfl

/-- After one GET, 7 bits fewer remain. -/
@[simp] theorem State.setUcur_advance_rem (s : State) : (s.setUcur s.ucur.advance).rem = s.rem - 7 := by
  simp only [State.rem, State.setUcur_ubuf, State.setUcur_ucur, Cursor.pos_advance]; omega

@[simp] theorem State.respondOk_rem (s : State) (r : Byte) : (s.respondOk r).rem = s.rem := rfl

/-- Splitting a byte and merging the halves gives the byte back (R163). -/
theorem mergeNibbles_split : ∀ b : Byte, mergeNibbles (highNibble b) (lowNibble b) = b := by decide +kernel

/-- The capacity bound as a proposition (R29, R30). -/
theorem Memory.wf_iff (cfg : Config) (buf : Memory) :
    Memory.wf cfg buf = true ↔ ∀ n, cfg.bufBytes = some n → buf.length ≤ n := by
  simp only [Memory.wf]
  cases cfg.bufBytes <;> simp

/-- The empty buffer is in form (R38). -/
@[simp] theorem Memory.wf_nil (cfg : Config) : Memory.wf cfg [] = true := by simp [Memory.wf_iff]

/-- PUT's writes keep the capacity bound when the check passed (R143, R29). -/
theorem packWord_wf {cfg : Config} {buf out : Memory} {c : Cursor} {w : Codeword}
    (hlen : buf.length = (c.pos + 7) / 8) (hfit : ∀ n, cfg.bufBytes = some n → c.pos + 7 ≤ 8 * n)
    (h : packWord buf c w = some out) : Memory.wf cfg out = true := by
  obtain ⟨out', h', hl, -⟩ := packWord_getElem? buf c w hlen
  obtain rfl : out = out' := Option.some.inj (h.symm.trans h')
  rw [Memory.wf_iff]
  intro n hn
  have := hfit n hn
  omega

/-- HOST_LOAD keeps the capacity bound: it takes only a buffer that fits (R197, R30). -/
theorem hostLoad_wf {s : State} (h : Memory.wf s.cfg s.ubuf = true) (bytes : Memory) (b o : Nat) :
    Memory.wf s.cfg (hostLoad bytes b o s).ubuf = true := by
  simp only [hostLoad]
  split
  · split
    · simpa using ‹_›
    · simpa using h
  · simpa using h

/-- Both buffers are in form after reset, whatever the configuration (R38). -/
theorem resetWith_wf (cfg : Config) :
    Memory.wf cfg (State.resetWith cfg).pbuf = true ∧ Memory.wf cfg (State.resetWith cfg).ubuf = true :=
  ⟨Memory.wf_nil cfg, Memory.wf_nil cfg⟩

end Sys2Proof.Machine
end

