-- ==== Sys2Proof/Laws/Exec.lean ====
section
/-! SUPPORT. What `exec` can do: one lemma for all commands, and one per stream command for where it completes and where it
raises its fault (spec 42 R141 to R149; 43 R161, R162; 60 R186). -/

namespace Sys2Proof.Machine

/-- Everything a command can do: answer `ok` alone, raise a fault, move the unpacker's cursor, replace the packer, or
stop at a byte that does not exist. -/
theorem exec_cases (i : Instr) (s : State) :
    (∃ r, exec i s = .next (s.respondOk r) ∧ (∀ w, i ≠ .put w) ∧ (∀ b, i ≠ .encb b) ∧ i ≠ .get ∧ i ≠ .decb) ∨
    (exec i s = .next (s.raise .underflow) ∧ (i = .get ∨ i = .decb)) ∨
    (exec i s = .next (s.raise .overflow) ∧ s.cfg.bufBytes ≠ none ∧ ((∃ w, i = .put w) ∨ ∃ b, i = .encb b)) ∨
    (∃ c r, exec i s = .next ((s.setUcur c).respondOk r) ∧ (i = .get ∨ i = .decb)) ∨
    (∃ buf c, exec i s = .next ((s.setPacker buf c).respondOk 0) ∧
      ((∃ w, i = .put w) ∨ (∃ b, i = .encb b) ∨ i = .pclr)) ∨
    (∃ n, exec i s = .fault (.bufferBounds n)) := by
  cases i with
  | init => exact .inl ⟨_, rfl, by simp⟩
  | par x => exact .inl ⟨_, rfl, by simp⟩
  | enc n => exact .inl ⟨_, rfl, by simp⟩
  | syn c => exact .inl ⟨_, rfl, by simp⟩
  | err y => exact .inl ⟨_, rfl, by simp⟩
  | dec c => exact .inl ⟨_, rfl, by simp⟩
  | stat => exact .inl ⟨_, rfl, by simp⟩
  | pclr => exact .inr (.inr (.inr (.inr (.inl ⟨_, _, rfl, by simp⟩))))
  | put w =>
    simp only [exec, execPut]
    split
    · rename_i h
      obtain ⟨n, hn, -⟩ := (putOverflows_iff s).1 h
      exact .inr (.inr (.inl ⟨rfl, by simp [hn], .inl ⟨w, rfl⟩⟩))
    · split
      · exact .inr (.inr (.inr (.inr (.inr ⟨_, rfl⟩))))
      · rename_i h
        obtain ⟨buf, rfl⟩ := packNext_shape h
        exact .inr (.inr (.inr (.inr (.inl ⟨_, _, rfl, .inl ⟨w, rfl⟩⟩))))
  | get =>
    simp only [exec, execGet]
    split
    · exact .inr (.inl ⟨rfl, by simp⟩)
    · split
      · exact .inr (.inr (.inr (.inr (.inr ⟨_, rfl⟩))))
      · rename_i h
        obtain rfl := unpackNext_shape h
        exact .inr (.inr (.inr (.inl ⟨_, _, rfl, by simp⟩)))
  | encb b =>
    simp only [exec, execEncb]
    split
    · rename_i h
      obtain ⟨n, hn, -⟩ := (pairOverflows_iff s).1 h
      exact .inr (.inr (.inl ⟨rfl, by simp [hn], .inr ⟨b, rfl⟩⟩))
    · split
      · exact .inr (.inr (.inr (.inr (.inr ⟨_, rfl⟩))))
      · rename_i h
        obtain ⟨buf, rfl⟩ := packNext_shape h
        split
        · exact .inr (.inr (.inr (.inr (.inr ⟨_, rfl⟩))))
        · rename_i h'
          obtain ⟨buf', rfl⟩ := packNext_shape h'
          exact .inr (.inr (.inr (.inr (.inl ⟨buf', _, rfl, .inr (.inl ⟨b, rfl⟩)⟩))))
  | decb =>
    simp only [exec, execDecb]
    split
    · exact .inr (.inl ⟨rfl, by simp⟩)
    · split
      · exact .inr (.inr (.inr (.inr (.inr ⟨_, rfl⟩))))
      · rename_i h
        obtain rfl := unpackNext_shape h
        split
        · exact .inr (.inr (.inr (.inr (.inr ⟨_, rfl⟩))))
        · rename_i h'
          obtain rfl := unpackNext_shape h'
          exact .inr (.inr (.inr (.inl ⟨_, _, rfl, by simp⟩)))

/-- PUT's writes as `exec` answers them, where the check passes and the packer is in form (R141). -/
theorem exec_put_fits {s : State} (h : s.PackerOk) (hfit : s.putOverflows = false) (w : Codeword) :
    ∃ buf, packWord s.pbuf s.pcur w = some buf ∧
      exec (.put w) s = .next ((s.setPacker buf s.pcur.advance).respondOk 0) := by
  obtain ⟨buf, hb, -⟩ := packWord_getElem? s.pbuf s.pcur w h.1
  exact ⟨buf, hb, by simp [exec, execPut, hfit, State.packNext, hb]⟩

/-- GET's read as `exec` answers it, where 7 bits remain (R145). -/
theorem exec_get_avail {s : State} (h : 7 ≤ s.rem) :
    ∃ w, unpackWord s.ubuf s.ucur = some w ∧
      exec .get s = .next ((s.setUcur s.ucur.advance).respondOk (zext8 w)) := by
  simp only [State.rem] at h
  obtain ⟨w, hw, -⟩ := unpackWord_streamBit s.ubuf s.ucur (by omega)
  refine ⟨w, hw, ?_⟩
  have : ¬ s.rem < 7 := by simp only [State.rem]; omega
  simp [exec, execGet, this, State.unpackNext, hw]

/-- ENCB as two of PUT's writes, where both words fit and the packer is in form (R161). -/
theorem exec_encb_fits {s : State} (h : s.PackerOk) (hfit : s.pairOverflows = false) (b : Byte) :
    ∃ b1 b2, packWord s.pbuf s.pcur (s.rom.encAt (highNibble b)) = some b1 ∧
      (s.setPacker b1 s.pcur.advance).PackerOk ∧
      packWord b1 s.pcur.advance (s.rom.encAt (lowNibble b)) = some b2 ∧
      (s.setPacker b2 s.pcur.advance.advance).PackerOk ∧
      exec (.encb b) s = .next ((s.setPacker b2 s.pcur.advance.advance).respondOk 0) := by
  obtain ⟨b1, h1, ok1, -⟩ := packNext_spec h (s.rom.encAt (highNibble b))
  obtain ⟨b2, h2, ok2, -⟩ := packNext_spec ok1 (s.rom.encAt (lowNibble b))
  have e1 : packWord s.pbuf s.pcur (s.rom.encAt (highNibble b)) = some b1 := by
    simp only [State.packNext, Option.map_eq_some_iff] at h1
    obtain ⟨a, ha, hb⟩ := h1
    rw [ha, ← (by simpa using congrArg State.pbuf hb : a = b1)]
  have e2 : packWord b1 s.pcur.advance (s.rom.encAt (lowNibble b)) = some b2 := by
    simp only [State.packNext, Option.map_eq_some_iff, State.setPacker_pbuf, State.setPacker_pcur] at h2
    obtain ⟨a, ha, hb⟩ := h2
    rw [ha, ← (by simpa using congrArg State.pbuf hb : a = b2)]
  refine ⟨b1, b2, e1, ok1, e2, ok2, ?_⟩
  simp [exec, execEncb, hfit, State.packNext, e1, e2]
  rfl

/-- DECB as two of GET's reads, where 14 bits remain (R162). -/
theorem exec_decb_avail {s : State} (h : 14 ≤ s.rem) :
    ∃ w1 w2, unpackWord s.ubuf s.ucur = some w1 ∧ unpackWord s.ubuf s.ucur.advance = some w2 ∧
      exec .decb s = .next ((s.setUcur s.ucur.advance.advance).respondOk
        (mergeNibbles (s.rom.decAt w1) (s.rom.decAt w2))) := by
  have h' := h
  simp only [State.rem] at h
  obtain ⟨w1, hw1, -⟩ := unpackWord_streamBit s.ubuf s.ucur (by omega)
  obtain ⟨w2, hw2, -⟩ := unpackWord_streamBit s.ubuf s.ucur.advance (by simp; omega)
  refine ⟨w1, w2, hw1, hw2, ?_⟩
  have : ¬ s.rem < 14 := by omega
  simp [exec, execDecb, this, State.unpackNext, hw1, hw2]
  rfl

end Sys2Proof.Machine
end

