-- ==== Sys2Proof/Laws/Step.lean ====
section
/-! SUPPORT. What a step can do, said once: the pending input decides, and each input has its one operation (spec 00 R15; 30
R91; 60 R196 to R198; 70 R210). -/

namespace Sys2Proof.Machine

/-- With no input pending the machine idles (R204). -/
theorem step_idle {s : State} (h : s.input = []) : step s = .next s := by simp [step, State.takeInput, h]

/-- With an input pending a step performs it (R15). -/
theorem step_input {s : State} {e : Input} {rest : List Input} (h : s.input = e :: rest) :
    step s = runInput e { s with input := rest } := by simp [step, State.takeInput, h]

/-- Issuing an input performs it on the state as it is. -/
theorem issue_eq (e : Input) (s : State) : issue e s = runInput e s := by
  rw [issue, step_input (State.withInput_input s e)]; rfl

/-- Everything a step that answers a next state did: it idled, performed a command, rejected one, or performed a host
action or the reset event. -/
theorem step_cases {s t : State} (h : step s = .next t) :
    (s.input = [] ∧ t = s) ∨
    (∃ w rest i, s.input = .command w :: rest ∧ decode w = .command i ∧ exec i { s with input := rest } = .next t) ∨
    (∃ w rest k, s.input = .command w :: rest ∧ decode w = .reject k ∧ t = ({ s with input := rest } : State).raise k) ∨
    (∃ bytes b o rest, s.input = .hostLoad bytes b o :: rest ∧ t = hostLoad bytes b o { s with input := rest }) ∨
    (∃ rest, s.input = .hostRead :: rest ∧ t = hostRead { s with input := rest }) ∨
    (∃ rest, s.input = .reset :: rest ∧ t = hardReset { s with input := rest }) := by
  match hs : s.input with
  | [] =>
    rw [step_idle hs] at h
    cases h
    exact .inl ⟨rfl, rfl⟩
  | .command w :: rest =>
    rw [step_input hs] at h
    simp only [runInput, runCommand] at h
    cases hd : decode w with
    | command i => exact .inr (.inl ⟨w, rest, i, rfl, hd, by simpa [hd] using h⟩)
    | reject k =>
      simp only [hd, Host.Outcome.next.injEq] at h
      exact .inr (.inr (.inl ⟨w, rest, k, rfl, hd, h.symm⟩))
  | .hostLoad bytes b o :: rest =>
    rw [step_input hs] at h
    simp only [runInput, Host.Outcome.next.injEq] at h
    exact .inr (.inr (.inr (.inl ⟨bytes, b, o, rest, rfl, h.symm⟩)))
  | .hostRead :: rest =>
    rw [step_input hs] at h
    simp only [runInput, Host.Outcome.next.injEq] at h
    exact .inr (.inr (.inr (.inr (.inl ⟨rest, rfl, h.symm⟩))))
  | .reset :: rest =>
    rw [step_input hs] at h
    simp only [runInput, Host.Outcome.next.injEq] at h
    exact .inr (.inr (.inr (.inr (.inr ⟨rest, rfl, h.symm⟩))))

/-- What HOST_LOAD changes, accepted or refused (R197). -/
theorem hostLoad_cases (bytes : Memory) (b o : Nat) (s : State) :
    (∃ h : o < 8, Memory.wf s.cfg bytes = true ∧
      hostLoad bytes b o s = (s.setUnpacker bytes { byte := b, off := ⟨o, h⟩ }).reply (.hostLoad true)) ∨
    (¬ (o < 8 ∧ Memory.wf s.cfg bytes = true) ∧ hostLoad bytes b o s = s.reply (.hostLoad false)) := by
  simp only [hostLoad]
  split
  · rename_i h
    split
    · exact .inl ⟨h, ‹_›, rfl⟩
    · exact .inr ⟨by simp_all, rfl⟩
  · exact .inr ⟨by simp_all, rfl⟩

/-- The decoder rejects with IllegalOp or OperandRange only (R91). -/
theorem decode_reject {w : Cmd} {k : FaultKind} (h : decode w = .reject k) :
    k = .illegalOp ∨ k = .operandRange := by
  simp only [decode, decodeFields, decodeNoOperand, decodeOperand] at h
  split at h <;> first | (split at h <;> simp_all) | simp_all

end Sys2Proof.Machine
end

