-- ==== Sys2Proof/Laws/Tables.lean ====
section
/-! SUPPORT. What the generated tables hold, entry by entry, as functions of the index (spec 10 R25 to R28; 40 R105; 41 R121
to R126). -/

namespace Sys2Proof.Machine

/-- Entry `a` of a tabulated table. -/
theorem tabulate_getElem {α : Type} (n : Nat) (f : Nat → α) (a : Nat) (h : a < n) : (tabulate n f)[a] = f a := by
  simp [tabulate]

/-- `PAR_ROM[x]` is the parity of `x` (R25, R100). -/
theorem parAt_generated (x : Byte) : Tables.generated.parAt x = parity x := by
  simp [Tables.parAt, Tables.generated, parTable, tabulate_getElem]

/-- One bit of a matrix product over the generated parity table (R104). -/
theorem rowBit_parTable {k : Nat} (v row : BitVec k) : rowBit parTable v row = parity ((v &&& row).setWidth 8) := by
  simp only [rowBit, parTable, tabulate_getElem, BitVec.ofNat_toNat, BitVec.setWidth_eq]

/-- `ENC_ROM[n]` is the encoding of `n` (R26, R121). -/
theorem encAt_generated (n : Nibble) : Tables.generated.encAt n = encodeBlock parTable n := by
  simp [Tables.encAt, Tables.generated, encTable, tabulate_getElem]

/-- `SYN_ROM[c]` is the syndrome of `c` (R27, R123). -/
theorem synAt_generated (c : Codeword) : Tables.generated.synAt c = syndromeOf parTable c := by
  simp [Tables.synAt, Tables.generated, synTable, tabulate_getElem]

/-- `DEC_ROM[c]` is the nibble of the corrected word (R28, R126). -/
theorem decAt_generated (c : Codeword) :
    Tables.generated.decAt c = extractNibble (c ^^^ errorMask (Tables.generated.synAt c)) := by
  simp only [Tables.decAt, Tables.generated, decTable, tabulate_getElem, decodeBlock, Tables.synAt,
    BitVec.ofNat_toNat, BitVec.setWidth_eq]

/-- Parity as an exclusive OR of bits (R100). -/
theorem parity_eq_xor (x : Byte) :
    parity x = BitVec.ofBool (x[0] ^^ x[1] ^^ x[2] ^^ x[3] ^^ x[4] ^^ x[5] ^^ x[6] ^^ x[7]) := by
  simp only [parity, popcount]
  cases x[0] <;> cases x[1] <;> cases x[2] <;> cases x[3] <;> cases x[4] <;> cases x[5] <;> cases x[6] <;>
    cases x[7] <;> rfl

/-- `ENC_ROM` as bit equations (R122). -/
theorem encAt_bits (n : Nibble) : Tables.generated.encAt n =
    BitVec.ofBool (n[3] ^^ n[1] ^^ n[0]) ++ BitVec.ofBool (n[3] ^^ n[2] ^^ n[0]) ++ BitVec.ofBool n[0] ++
    BitVec.ofBool (n[3] ^^ n[2] ^^ n[1]) ++ BitVec.ofBool n[1] ++ BitVec.ofBool n[2] ++ BitVec.ofBool n[3] := by
  revert n; decide +kernel

/-- `SYN_ROM` as bit equations (R124). -/
theorem synAt_bits (x : Codeword) : Tables.generated.synAt x =
    BitVec.ofBool (x[0] ^^ x[1] ^^ x[2] ^^ x[3]) ++ BitVec.ofBool (x[0] ^^ x[1] ^^ x[4] ^^ x[5]) ++
    BitVec.ofBool (x[0] ^^ x[2] ^^ x[4] ^^ x[6]) := by
  revert x; decide +kernel

/-- Every codeword that ENC gives has syndrome 0 (R124). -/
theorem synAt_encAt : ∀ n : Nibble, Tables.generated.synAt (Tables.generated.encAt n) = 0 := by decide +kernel

/-- DEC corrects any one flipped bit of a codeword (R128). -/
theorem decAt_flip : ∀ (n : Nibble) (p : Fin 7),
    Tables.generated.decAt (Tables.generated.encAt n ^^^ (1#7 <<< p.val)) = n := by decide +kernel

/-- DEC inverts ENC (R127, R128). -/
theorem decAt_encAt : ∀ n : Nibble, Tables.generated.decAt (Tables.generated.encAt n) = n := by decide +kernel

end Sys2Proof.Machine
end

