-- ==== Sys2Proof/Laws/Session.lean ====
section
/-! SUPPORT. What the host's sequences of commands can do: issuing one input, and each loop said once (spec 42 R150; 43 R161
to R171). The loop lemmas take as a premise that decoding a command's word gives the command. -/

namespace Sys2Proof.Machine

/-- Seven-bit words are equal when their bits are. -/
theorem Codeword.ext_bits {a b : Codeword} (h : ∀ i < 7, a.getLsbD i = b.getLsbD i) : a = b :=
  BitVec.eq_of_getLsbD_eq fun i hi => h i hi

/-- A zero-extended word, cut to 7 bits again. -/
theorem zext8_cut (w : Codeword) : (zext8 w).setWidth 7 = w := by simp [zext8]

/-- The merge of two nibbles is their concatenation, the first in the high half (R83, R163). -/
theorem mergeNibbles_append : ∀ a b : Nibble, mergeNibbles a b = a ++ b := by decide +kernel

/-- ENCB's check passes where 14 bits fit (R161). -/
theorem pairOverflows_false {s : State} (h : ∀ n, s.cfg.bufBytes = some n → s.pcur.pos + 14 ≤ 8 * n) :
    s.pairOverflows = false := by
  by_contra hc
  obtain ⟨n, h1, h2⟩ := (pairOverflows_iff s).1 (by simpa using hc)
  have := h n h1
  omega

/-- ENCB's next state where both words fit, bit by bit of the stream (R161). -/
theorem exec_encb_stream {s : State} (hp : s.PackerOk) (hf : s.pairOverflows = false) (b : Byte) :
    ∃ buf, exec (.encb b) s = .next ((s.setPacker buf s.pcur.advance.advance).respondOk 0) ∧
      (s.setPacker buf s.pcur.advance.advance).PackerOk ∧
      ∀ p, streamBit buf p =
        if s.pcur.pos ≤ p ∧ p < s.pcur.pos + 7 then (s.rom.encAt (highNibble b)).getLsbD (p - s.pcur.pos)
        else if s.pcur.pos + 7 ≤ p ∧ p < s.pcur.pos + 14 then
          (s.rom.encAt (lowNibble b)).getLsbD (p - (s.pcur.pos + 7))
        else streamBit s.pbuf p := by
  obtain ⟨b1, b2, hb1, ok1, hb2, ok2, he⟩ := exec_encb_fits hp hf b
  obtain ⟨c1, hc1, -, hg1⟩ := packWord_streamBit s.pbuf s.pcur _ hp.1 hp.zero
  obtain rfl : b1 = c1 := Option.some.inj (hb1.symm.trans hc1)
  obtain ⟨c2, hc2, -, hg2⟩ :=
    packWord_streamBit b1 s.pcur.advance (s.rom.encAt (lowNibble b)) (by simpa using ok1.1) ok1.zero
  obtain rfl : b2 = c2 := Option.some.inj (hb2.symm.trans hc2)
  refine ⟨b2, he, ok2, fun p => ?_⟩
  rw [hg2, hg1]
  simp only [Cursor.pos_advance]
  split <;> split <;> first | rfl | omega

/-- Issuing a command that answers `ok`. -/
theorem issueOk_of {i : Instr} {s t : State} {r : Byte} (hd : decode (encode i) = .command i)
    (h : exec i s = .next (t.respondOk r)) : issueOk i s = some (t.respondOk r, r) := by
  simp only [issueOk, issue_eq, runInput, runCommand, hd, h]
  rfl

/-- Issuing a command that raises a fault: the sequence has no result. -/
theorem issueOk_raise {i : Instr} {s t : State} {k : FaultKind} (hd : decode (encode i) = .command i)
    (h : exec i s = .next (t.raise k)) : issueOk i s = none := by
  simp only [issueOk, issue_eq, runInput, runCommand, hd, h]
  rfl

/-- HOST_LOAD at `(0, 0)` of bytes that fit (R197). -/
theorem issueLoad_eq {bytes : Memory} {s : State} (h : Memory.wf s.cfg bytes = true) :
    issueLoad bytes s = some ((s.setUnpacker bytes { byte := 0, off := 0 }).reply (.hostLoad true)) := by
  simp only [issueLoad, issue_eq, runInput, hostLoad]
  simp [h]

/-- HOST_READ (R198). -/
theorem issueRead_eq (s : State) : issueRead s = some (s.reply (.hostRead s.pbuf s.pcur), s.pbuf) := by
  simp only [issueRead, issue_eq, runInput, hostRead]
  rfl

/-- Words that fit are put one behind the other from the cursor on (R51, R52, R142). -/
theorem putAll_spec (hd : ∀ i, decode (encode i) = .command i) : ∀ (ws : List Codeword) (s : State), s.PackerOk →
    (∀ n, s.cfg.bufBytes = some n → s.pcur.pos + 7 * ws.length ≤ 8 * n) →
    ∃ t, putAll ws s = some t ∧ t.PackerOk ∧ t.cfg = s.cfg ∧ t.pcur.pos = s.pcur.pos + 7 * ws.length ∧
      (∀ p < s.pcur.pos, streamBit t.pbuf p = streamBit s.pbuf p) ∧
      ∀ j (h : j < ws.length), ∀ i < 7, streamBit t.pbuf (s.pcur.pos + 7 * j + i) = ws[j].getLsbD i := by
  intro ws
  induction ws with
  | nil => intro s hp hc; exact ⟨s, rfl, hp, rfl, by simp, by simp, by simp⟩
  | cons w ws ih =>
    intro s hp hc
    have hf : s.putOverflows = false := by
      by_contra hcon
      obtain ⟨n, e1, e2⟩ := (putOverflows_iff s).1 (by simpa using hcon)
      have := hc n e1
      simp only [List.length_cons] at this
      omega
    obtain ⟨buf, hb, he⟩ := exec_put_fits hp hf w
    obtain ⟨out, hb', ok, -, hbit⟩ := packNext_spec hp w
    obtain rfl : out = buf := by
      simp only [State.packNext, hb, Option.map_some, Option.some.injEq] at hb'
      simpa using (congrArg State.pbuf hb').symm
    obtain ⟨t, h1, h2, h3, h4, h5, h6⟩ := ih ((s.setPacker out s.pcur.advance).respondOk 0) ok
      fun n hn => by have := hc n hn; simp at this ⊢; omega
    simp at h4 h5 h6
    refine ⟨t, by simp only [putAll, issueOk_of (hd _) he, Option.bind_some, h1], h2, h3, ?_, fun p hpp => ?_, ?_⟩
    · rw [h4, List.length_cons]; omega
    · rw [h5 p (by omega), hbit, if_neg (by omega)]
    · intro j hj i hi
      cases j with
      | zero => rw [h5 _ (by omega), hbit, if_pos (by omega), List.getElem_cons_zero]; congr 1; omega
      | succ j =>
        rw [List.getElem_cons_succ, ← h6 j (by simpa using hj) i hi]; congr 1; omega

/-- Words that lie in the stream from the cursor on are read back in order (R52, R146). -/
theorem getN_spec (hd : ∀ i, decode (encode i) = .command i) : ∀ (ws : List Codeword) (s : State),
    s.ucur.pos + 7 * ws.length ≤ 8 * s.ubuf.length →
    (∀ j (h : j < ws.length), ∀ i < 7, streamBit s.ubuf (s.ucur.pos + 7 * j + i) = ws[j].getLsbD i) →
    ∃ v, getN ws.length s = some (v, ws) ∧ v.ubuf = s.ubuf ∧ v.ucur.pos = s.ucur.pos + 7 * ws.length := by
  intro ws
  induction ws with
  | nil => intro s _ _; exact ⟨s, rfl, rfl, rfl⟩
  | cons w ws ih =>
    intro s hl hb
    simp only [List.length_cons] at hl
    obtain ⟨x, hx, he⟩ := exec_get_avail (s := s) (by simp only [State.rem]; omega)
    obtain ⟨y, hy, hbit⟩ := unpackWord_streamBit s.ubuf s.ucur (by omega)
    obtain rfl : x = y := Option.some.inj (hx.symm.trans hy)
    obtain rfl : x = w := Codeword.ext_bits fun i hi => by rw [hbit i hi]; exact hb 0 (by simp) i hi
    obtain ⟨v, h1, h2, h3⟩ := ih ((s.setUcur s.ucur.advance).respondOk (zext8 x)) (by simp; omega) fun j hj i hi => by
      have := hb (j + 1) (by simpa using hj) i hi
      simp only [List.getElem_cons_succ] at this
      rw [← this]; simp; congr 1; omega
    refine ⟨v, ?_, h2, by rw [h3]; simp; omega⟩
    simp only [List.length_cons, getN, issueOk_of (hd _) he, Option.bind_some, h1, Option.map_some, zext8_cut]

/-- Bytes that fit are encoded one behind the other from the cursor on (R53, R161). -/
theorem encbAll_spec (hd : ∀ i, decode (encode i) = .command i) : ∀ (bs : List Byte) (s : State), s.PackerOk →
    (∀ n, s.cfg.bufBytes = some n → s.pcur.pos + 14 * bs.length ≤ 8 * n) →
    ∃ t, encbAll bs s = some t ∧ t.PackerOk ∧ t.cfg = s.cfg ∧ t.rom = s.rom ∧
      t.pcur.pos = s.pcur.pos + 14 * bs.length ∧
      (∀ p < s.pcur.pos, streamBit t.pbuf p = streamBit s.pbuf p) ∧
      ∀ j (h : j < bs.length), ∀ i < 7,
        streamBit t.pbuf (s.pcur.pos + 14 * j + i) = (s.rom.encAt (highNibble bs[j])).getLsbD i ∧
        streamBit t.pbuf (s.pcur.pos + 14 * j + 7 + i) = (s.rom.encAt (lowNibble bs[j])).getLsbD i := by
  intro bs
  induction bs with
  | nil => intro s hp hc; exact ⟨s, rfl, hp, rfl, rfl, by simp, by simp, by simp⟩
  | cons b bs ih =>
    intro s hp hc
    have hf : s.pairOverflows = false := pairOverflows_false fun n hn => by
      have := hc n hn; simp only [List.length_cons] at this; omega
    obtain ⟨buf, he, ok, hbit⟩ := exec_encb_stream hp hf b
    obtain ⟨t, h1, h2, h3, h4, h5, h6, h7⟩ := ih ((s.setPacker buf s.pcur.advance.advance).respondOk 0) ok
      fun n hn => by have := hc n hn; simp at this ⊢; omega
    simp at h5 h6 h7
    refine ⟨t, by simp only [encbAll, issueOk_of (hd _) he, Option.bind_some, h1], h2, h3, h4, ?_, fun p hpp => ?_, ?_⟩
    · rw [h5, List.length_cons]; omega
    · rw [h6 p (by omega), hbit, if_neg (by omega), if_neg (by omega)]
    · intro j hj i hi
      cases j with
      | zero =>
        simp only [List.getElem_cons_zero]
        constructor
        · rw [h6 _ (by omega), hbit, if_pos (by omega)]; congr 1; omega
        · rw [h6 _ (by omega), hbit, if_neg (by omega), if_pos (by omega)]; congr 1; omega
      | succ j =>
        have := h7 j (by simpa using hj) i hi
        rw [List.getElem_cons_succ, ← this.1, ← this.2]
        constructor <;> (congr 1; omega)

/-- Enough rounds of the GET loop read every whole word that remains (R147, R167). -/
theorem getLoop_spec (hd : ∀ i, decode (encode i) = .command i) : ∀ (fuel : Nat) (s : State), s.rem ≤ 7 * fuel →
    ∃ t ws, getLoop fuel s = some (t, ws) ∧ t = { s with ucur := t.ucur, output := t.output } ∧
      ws.length = s.rem / 7 ∧ t.ucur.pos = s.ucur.pos + 7 * ws.length ∧
      ∀ j (h : j < ws.length), ∀ i < 7, ws[j].getLsbD i = streamBit s.ubuf (s.ucur.pos + 7 * j + i) := by
  intro fuel
  induction fuel with
  | zero => intro s h; exact ⟨s, [], rfl, rfl, by simp; omega, rfl, by simp⟩
  | succ n ih =>
    intro s h
    by_cases hu : 7 ≤ s.rem
    · obtain ⟨x, hx, he⟩ := exec_get_avail hu
      obtain ⟨y, hy, hbit⟩ := unpackWord_streamBit s.ubuf s.ucur (by simp only [State.rem] at hu; omega)
      obtain rfl : x = y := Option.some.inj (hx.symm.trans hy)
      obtain ⟨t, ws, h1, h2, h4, h5, h6⟩ := ih ((s.setUcur s.ucur.advance).respondOk (zext8 x)) (by simp; omega)
      simp at h4 h5 h6
      refine ⟨t, x :: ws, ?_, h2, by simp [h4]; omega, by rw [h5, List.length_cons]; omega, ?_⟩
      · simp only [getLoop, State.uavail, hu, decide_true, if_true, issueOk_of (hd _) he, Option.bind_some, h1,
          Option.map_some, zext8_cut]
      · intro j hj i hi
        cases j with
        | zero => rw [List.getElem_cons_zero, hbit i hi]; congr 1
        | succ j => rw [List.getElem_cons_succ, h6 j (by simpa using hj) i hi]; congr 1; omega
    · exact ⟨s, [], by simp [getLoop, State.uavail, hu], rfl, by simp; omega, rfl, by simp⟩

/-- Words are decoded by pairs; an unpaired last word is dropped (R167). -/
theorem decodePairs_spec (hd : ∀ i, decode (encode i) = .command i) : ∀ (n : Nat) (ws : List Codeword) (s : State),
    ws.length ≤ n → ∃ t out, decodePairs ws s = some (t, out) ∧ t = { s with output := t.output } ∧
      out.length = ws.length / 2 ∧
      ∀ k (h : k < out.length) (h1 : 2 * k < ws.length) (h2 : 2 * k + 1 < ws.length),
        out[k] = s.rom.decAt ws[2 * k] ++ s.rom.decAt ws[2 * k + 1] := by
  intro n
  induction n with
  | zero =>
    intro ws s h
    obtain rfl := List.length_eq_zero_iff.1 (Nat.le_zero.1 h)
    exact ⟨s, [], rfl, rfl, rfl, by simp⟩
  | succ n ih =>
    intro ws s h
    match ws with
    | [] => exact ⟨s, [], rfl, rfl, rfl, by simp⟩
    | [_] => exact ⟨s, [], rfl, rfl, by simp, by simp⟩
    | w1 :: w2 :: rest =>
      have e1 : exec (.dec w1) s = .next (s.respondOk (zext8 (s.rom.decAt w1))) := rfl
      have e2 : exec (.dec w2) (s.respondOk (zext8 (s.rom.decAt w1))) =
          .next ((s.respondOk (zext8 (s.rom.decAt w1))).respondOk (zext8 (s.rom.decAt w2))) := rfl
      obtain ⟨t, out, h1, h2, h4, h5⟩ := ih rest
        ((s.respondOk (zext8 (s.rom.decAt w1))).respondOk (zext8 (s.rom.decAt w2))) (by simp at h; omega)
      refine ⟨t, (s.rom.decAt w1 ++ s.rom.decAt w2 : Byte) :: out, ?_, h2, by simp [h4]; omega, ?_⟩
      · simp only [decodePairs, issueOk_of (hd _) e1, issueOk_of (hd _) e2, Option.bind_some, h1,
          Option.map_some, ← mergeNibbles_append]
        rfl
      · intro k hk k1 k2
        cases k with
        | zero => rfl
        | succ k =>
          rw [List.getElem_cons_succ, h5 k (by simpa using hk) (by simp at k1; omega) (by simp at k2; omega)]
          rfl

/-- Enough rounds of the DECB loop decode every pair of whole words that remains (R162, R171). -/
theorem decbLoop_spec (hd : ∀ i, decode (encode i) = .command i) : ∀ (fuel : Nat) (s : State), s.rem ≤ 14 * fuel →
    ∃ t out, decbLoop fuel s = some (t, out) ∧ t = { s with ucur := t.ucur, output := t.output } ∧
      out.length = s.rem / 14 ∧ t.ucur.pos = s.ucur.pos + 14 * out.length ∧
      ∀ k (h : k < out.length), ∃ w1 w2 : Codeword, out[k] = s.rom.decAt w1 ++ s.rom.decAt w2 ∧
        (∀ i < 7, w1.getLsbD i = streamBit s.ubuf (s.ucur.pos + 14 * k + i)) ∧
        ∀ i < 7, w2.getLsbD i = streamBit s.ubuf (s.ucur.pos + 14 * k + 7 + i) := by
  intro fuel
  induction fuel with
  | zero => intro s h; exact ⟨s, [], rfl, rfl, by simp; omega, rfl, by simp⟩
  | succ n ih =>
    intro s h
    by_cases hu : 14 ≤ s.rem
    · obtain ⟨w1, w2, hw1, hw2, he⟩ := exec_decb_avail hu
      have hu' := hu
      simp only [State.rem] at hu' h
      obtain ⟨x1, hx1, hb1⟩ := unpackWord_streamBit s.ubuf s.ucur (by omega)
      obtain ⟨x2, hx2, hb2⟩ := unpackWord_streamBit s.ubuf s.ucur.advance (by simp; omega)
      obtain rfl : w1 = x1 := Option.some.inj (hw1.symm.trans hx1)
      obtain rfl : w2 = x2 := Option.some.inj (hw2.symm.trans hx2)
      obtain ⟨t, out, h1, h2, h3, h4, h5⟩ := ih ((s.setUcur s.ucur.advance.advance).respondOk
        (mergeNibbles (s.rom.decAt w1) (s.rom.decAt w2))) (by simp [State.rem]; omega)
      simp [State.rem] at h3 h4 h5
      refine ⟨t, mergeNibbles (s.rom.decAt w1) (s.rom.decAt w2) :: out, ?_, h2, by simp [h3, State.rem]; omega,
        by rw [h4, List.length_cons]; omega, ?_⟩
      · simp only [decbLoop, State.upair, hu, decide_true, if_true, issueOk_of (hd _) he, Option.bind_some, h1,
          Option.map_some]
      · intro k hk
        cases k with
        | zero =>
          refine ⟨w1, w2, mergeNibbles_append _ _, fun i hi => by rw [hb1 i hi]; rfl, fun i hi => ?_⟩
          rw [hb2 i hi, Cursor.pos_advance]
        | succ k =>
          obtain ⟨y1, y2, e, g1, g2⟩ := h5 k (by simpa using hk)
          refine ⟨y1, y2, by rw [List.getElem_cons_succ, e], fun i hi => ?_, fun i hi => ?_⟩
          · rw [g1 i hi]; congr 1; omega
          · rw [g2 i hi]; congr 1; omega
    · exact ⟨s, [], by simp [decbLoop, State.upair, hu], rfl, by simp; omega, rfl, by simp⟩

end Sys2Proof.Machine
end

