-- ==== Sys2Proof/Certificates/Slice0/Obligations.lean ====
section
/-! DEFINITION. The statements for the provers. Each docstring names the rule of spec/ it formalises. Two fields of State are
the model's own wherever they appear: `input`, the commands and host actions still to come (log entry 2), and `output`,
which holds the response of R81 or what a host action gave back (log entry 3). -/

open Sys2Proof Sys2Proof.Machine

/-! ### Encoding (spec 30) -/

/-- Decoding the word of any command gives the command back, every operand at every value (R80, R82, R91). -/
def Obligations.DecodeInvertsEncode : Prop := ∀ i : Instr, decode (encode i) = .command i

/-- A word that decodes to a command is that command's word: each command has one word (R82, R84, R87). -/
def Obligations.EncodeInvertsDecode : Prop := ∀ (w : Cmd) (i : Instr), decode w = .command i → encode i = w

/-- The decoder and the opcode table agree on every word: a command's word selects exactly the row of its mnemonic, a
rejected word selects none (R84). -/
def Obligations.DecoderAgreesWithOpcodeTable : Prop :=
  ∀ w : Cmd, (∀ i, decode w = .command i → rowsOf w = [i.mnemonic]) ∧ (∀ k, decode w = .reject k → rowsOf w = [])

/-- The census of the 4096 words: 925 commands, 1024 IllegalOp, 2147 OperandRange (R84). -/
def Obligations.CommandWordCensus : Prop :=
  ((List.range 4096).filter fun w => (decodeTableWord 16 w).isSome).length = 925 ∧
  ((List.range 4096).filter fun w => decide (decode (BitVec.ofNat 12 w) = .reject .illegalOp)).length = 1024 ∧
  ((List.range 4096).filter fun w => decide (decode (BitVec.ofNat 12 w) = .reject .operandRange)).length = 2147

/-- One word per command, written out from R82, decodes to the command it stands for. -/
def Obligations.SampleWordsDecode : Prop :=
  decode 0b000000000000 = .command .init ∧ decode 0b000100001011 = .command (.par 0x0B) ∧
  decode 0b001000001010 = .command (.enc 0xA) ∧ decode 0b001100100111 = .command (.syn 0x27) ∧
  decode 0b010000000110 = .command (.err 6) ∧ decode 0b010100100111 = .command (.dec 0x27) ∧
  decode 0b011001011010 = .command (.put 0x5A) ∧ decode 0b011100000000 = .command .get ∧
  decode 0b100010100101 = .command (.encb 0xA5) ∧ decode 0b100100000000 = .command .decb ∧
  decode 0b101000000000 = .command .pclr ∧ decode 0b101100000000 = .command .stat

/-- A step on a pending command word that decodes is the command's meaning, with that word taken from the pending
inputs (R15, R91; the pending inputs are the model's, log entry 2); and the host's placing of a table word makes
the next step run it. -/
def Obligations.StepRunsDecodedCommand : Prop :=
  (∀ (s : State) (w : Cmd) (rest : List Input) (i : Instr),
    s.input = .command w :: rest → decode w = .command i → step s = exec i { s with input := rest }) ∧
  (∀ (s : State) (nbits w : Nat) (i : Instr),
    decodeTableWord nbits w = some i → step (s.withFetchWord nbits w) = exec i s)

/-- The order of decoding a command word (R91): unassigned operation, then reserved bits, then the command, whose
own meaning decides the rest. -/
def Obligations.CommandWordsAreTriedInOrder : Prop :=
  ∀ (s : State) (w : Cmd) (rest : List Input), s.input = .command w :: rest →
    ((fieldsOf w).assigned = false → step s = .next (({ s with input := rest } : State).raise .illegalOp)) ∧
    ((fieldsOf w).assigned = true → (fieldsOf w).operandInRange = false →
      step s = .next (({ s with input := rest } : State).raise .operandRange)) ∧
    ((fieldsOf w).wellFormed = true → ∃ i, encode i = w ∧ step s = exec i { s with input := rest })

/-- IllegalOp: a word whose `op` is 0xC to 0xF changes nothing but the sticky bit, whatever its `arg` (R85, R182). -/
def Obligations.UnassignedOperationRaisesIllegalOp : Prop :=
  ∀ (s : State) (w : Cmd) (rest : List Input), s.input = .command w :: rest → 0xC#4 ≤ w.extractLsb' 8 4 →
    step s = .next { s with input := rest, fIll := true, output := some (.response (.fault 1)) }

/-- OperandRange: a reserved bit of `arg` that is 1 under an assigned `op` changes nothing but the sticky bit,
whatever the state (R86, R183). -/
def Obligations.ReservedBitRaisesOperandRange : Prop :=
  ∀ (s : State) (w : Cmd) (rest : List Input), s.input = .command w :: rest → w.extractLsb' 8 4 < 0xC#4 →
    (fieldsOf w).arg &&& (fieldsOf w).reservedBits ≠ 0 →
    step s = .next { s with input := rest, fOpr := true, output := some (.response (.fault 2)) }

/-! ### Reset, host, whole machine (spec 10, 60, 70) -/

/-- What reset leaves (R38): the tables at their generated values, both buffers empty, both cursors `(0, 0)`, the
sticky bits 0, and the derived views. -/
def Obligations.ResetValues : Prop :=
  State.reset.rom = Tables.generated ∧ State.reset.pbuf = [] ∧ State.reset.pcur = { byte := 0, off := 0 } ∧
  State.reset.ubuf = [] ∧ State.reset.ucur = { byte := 0, off := 0 } ∧ (∀ k, State.reset.sticky k = false) ∧
  State.reset.plen = 0 ∧ State.reset.ulen = 0 ∧ State.reset.uavail = false ∧ State.reset.upair = false ∧
  State.reset.status = 0x01

/-- The reset event puts every piece of the core's state at its reset value (R210). That the pending inputs and the
configuration stay and the output is cleared is the model's choice (log entry 5). -/
def Obligations.ResetEventRestoresState : Prop :=
  ∀ (s : State) (rest : List Input), s.input = .reset :: rest →
    step s = .next { State.resetWith s.cfg with input := rest }

/-- With no input pending a step changes nothing: the core waits (R204; that a step idles is the model's, log entry
4). -/
def Obligations.IdleStepChangesNothing : Prop := ∀ s : State, s.input = [] → step s = .next s

/-- The invariant holds right after reset, whatever `BUF_BYTES` (R31, R37, R38). -/
def Obligations.InvariantHoldsAtReset : Prop := ∀ cfg : Config, (State.resetWith cfg).Inv

/-- Every step keeps the packer invariant: the buffer has exactly the bytes the position needs, and no bit at or
beyond the position is set (R31). -/
def Obligations.StepKeepsPackerInvariant : Prop :=
  ∀ s t : State, s.PackerOk → step s = .next t → t.PackerOk

/-- Every step keeps the capacity bounds of both buffers and of the packer's byte index (R23, R29, R30). The packer
invariant ties the packer's length to its cursor. -/
def Obligations.StepKeepsCapacityBounds : Prop :=
  ∀ s t : State, s.PackerOk → s.CapacityOk → step s = .next t → t.CapacityOk

/-- No command and no host action writes a table, and the generated values stay through every step (R37). -/
def Obligations.TablesAreImmutable : Prop :=
  ∀ s t : State, step s = .next t →
    (s.input.head? ≠ some .reset → t.rom = s.rom) ∧ (s.rom = Tables.generated → t.rom = Tables.generated)

/-- From every state whose packer is in form a step answers a next state: no access falls outside a buffer, and the
core never stops (R67, R187, R222). -/
def Obligations.StepNeverStops : Prop := ∀ s : State, s.PackerOk → ∃ t, step s = .next t

/-- The sticky bits: they are 0 at reset and are read as bits 4 to 7 of STATUS; a command sets exactly the bit of the fault
it answers with, if any, and clears none; the host actions leave them; the reset event clears them (R35). -/
def Obligations.StickyBitsRecordFaults : Prop :=
  (∀ k, State.reset.sticky k = false) ∧
  (∀ s : State, s.status[4] = s.sticky .illegalOp ∧ s.status[5] = s.sticky .operandRange ∧
    s.status[6] = s.sticky .underflow ∧ s.status[7] = s.sticky .overflow) ∧
  ∀ s t : State, step s = .next t →
    (∀ w rest, s.input = .command w :: rest → ∀ k,
      t.sticky k = (s.sticky k || decide (t.output = some (.response (.fault (faultCode k)))))) ∧
    (∀ e rest, s.input = e :: rest → (∀ w, e ≠ .command w) → e ≠ .reset → ∀ k, t.sticky k = s.sticky k) ∧
    (∀ rest, s.input = .reset :: rest → ∀ k, t.sticky k = false)

/-- Fault entry (R186): a command that answers `fault(code)` writes neither buffer, neither cursor, nor a table; the
sticky bit of the fault is set, the others stay, and the code is that of the fault. -/
def Obligations.FaultEntryWritesOnlyTheStickyBit : Prop :=
  ∀ (s t : State) (w : Cmd) (rest : List Input) (c : BitVec 3), s.input = .command w :: rest → step s = .next t →
    t.output = some (.response (.fault c)) →
    t = { s with input := rest, output := t.output, fIll := t.fIll, fOpr := t.fOpr, fUnd := t.fUnd, fOvf := t.fOvf } ∧
    ∃ k, c = faultCode k ∧ ∀ j, t.sticky j = (s.sticky j || decide (j = k))

/-- Which command can answer which fault of its own: Underflow is of GET and DECB, Overflow of PUT and ENCB, and a
decoded command never answers IllegalOp or OperandRange (R181, R188). -/
def Obligations.FaultsBelongToTheirCommands : Prop :=
  ∀ (i : Instr) (s t : State) (c : BitVec 3), exec i s = .next t → t.output = some (.response (.fault c)) →
    (c = 3 ∧ (i = .get ∨ i = .decb)) ∨ (c = 4 ∧ ((∃ w, i = .put w) ∨ ∃ b, i = .encb b))

/-- Every command gets exactly one response, `ok` or `fault` (R81); the fields that show it are the model's (log entries 2
and 3). -/
def Obligations.EveryCommandIsAnswered : Prop :=
  ∀ (s t : State) (w : Cmd) (rest : List Input), s.input = .command w :: rest → step s = .next t →
    t.input = rest ∧ ∃ r, t.output = some (.response r)

/-- After a fault the core goes on as if nothing had happened: two states that differ in the sticky bits alone answer
every command but STAT alike, and still differ in the sticky bits alone (R187). -/
def Obligations.FaultBitsAreSeenByStatAlone : Prop :=
  ∀ (i : Instr) (s t : State) (a b c d : Bool), i ≠ .stat → exec i s = .next t →
    ∃ t', exec i { s with fIll := a, fOpr := b, fUnd := c, fOvf := d } = .next t' ∧
      t' = { t with fIll := t'.fIll, fOpr := t'.fOpr, fUnd := t'.fUnd, fOvf := t'.fOvf }

/-- A run goes wrong exactly when a command is refused: after a command, STATUS bits 7:4 are all 0 exactly if they
were before and the response is not a fault (R187, R222). -/
def Obligations.CleanStatusMeansNoRefusal : Prop :=
  ∀ (s t : State) (w : Cmd) (rest : List Input), s.input = .command w :: rest → step s = .next t →
    (t.wentWrong = false ↔ s.wentWrong = false ∧ ∃ r, t.output = some (.response (.ok r)))

/-- Who writes what: UBUF only HOST_LOAD and reset; UCUR only these, GET and DECB; PBUF and PCUR only PUT, ENCB, PCLR
and reset (R23, R24, R29, R30, R210). -/
def Obligations.OnlyTheNamedInputsWrite : Prop :=
  ∀ s t : State, step s = .next t →
    (t.ubuf ≠ s.ubuf → ∃ rest, (∃ bytes b o, s.input = .hostLoad bytes b o :: rest) ∨ s.input = .reset :: rest) ∧
    (t.ucur ≠ s.ucur → ∃ rest, (∃ bytes b o, s.input = .hostLoad bytes b o :: rest) ∨ s.input = .reset :: rest ∨
      ∃ w, s.input = .command w :: rest ∧ (decode w = .command .get ∨ decode w = .command .decb)) ∧
    ((t.pbuf ≠ s.pbuf ∨ t.pcur ≠ s.pcur) → ∃ rest, s.input = .reset :: rest ∨
      ∃ w, s.input = .command w :: rest ∧
        ((∃ v, decode w = .command (.put v)) ∨ (∃ b, decode w = .command (.encb b)) ∨ decode w = .command .pclr))

/-- HOST_LOAD (R197): with an offset of at most 7 and bytes that fit it replaces UBUF and UCUR and changes nothing else of
the core; otherwise it is refused, nothing changes and no fault bit is set. The byte index may be any number; at or beyond
the end UAVAIL is 0 and GET raises Underflow. What the host is told is left open here (log entry 3). -/
def Obligations.HostLoadReplacesUnpacker : Prop :=
  ∀ (s : State) (bytes : Memory) (b o : Nat) (rest : List Input), s.input = .hostLoad bytes b o :: rest →
    ∃ t, step s = .next t ∧
      (∀ h : o < 8, (∀ n, s.cfg.bufBytes = some n → bytes.length ≤ n) →
        t = { s with input := rest, ubuf := bytes, ucur := { byte := b, off := ⟨o, h⟩ }, output := t.output } ∧
        (bytes.length ≤ b → t.uavail = false ∧ exec .get t = .next (t.raise .underflow))) ∧
      ((7 < o ∨ ∃ n, s.cfg.bufBytes = some n ∧ n < bytes.length) →
        t = { s with input := rest, output := t.output })

/-- HOST_READ returns all of PBUF, in index order, and PCUR, and changes no state of the core (R198). That PCUR always comes
with it is the model's choice (log entry 3). -/
def Obligations.HostReadReturnsPackerBuffer : Prop :=
  ∀ (s : State) (rest : List Input), s.input = .hostRead :: rest →
    step s = .next { s with input := rest, output := some (.hostRead s.pbuf s.pcur) }

/-- INIT changes nothing, PCLR restores the packer alone, HOST_LOAD of nothing at `(0, 0)` restores the unpacker
alone, and none of them clears a fault bit (R211). -/
def Obligations.OnlyResetIsReset : Prop :=
  ∀ s : State,
    issue (.command (encode .init)) s = .next { s with output := some (.response (.ok 0)) } ∧
    issue (.command (encode .pclr)) s =
      .next { s with pbuf := State.reset.pbuf, pcur := State.reset.pcur, output := some (.response (.ok 0)) } ∧
    ∃ o, issue (.hostLoad [] 0 0) s =
      .next { s with ubuf := State.reset.ubuf, ucur := State.reset.ucur, output := o }

/-! ### INIT, PAR and the block codec (spec 40, 41) -/

/-- INIT writes no state and answers `ok(0x00)`; its word is 0x000, and any other `arg` is OperandRange (R106). -/
def Obligations.InitIsNoOp : Prop :=
  (∀ s : State, exec .init s = .next { s with output := some (.response (.ok 0x00)) }) ∧
  ∀ arg : Byte, decode (wordOf { op := 0x0, arg := arg }) = if arg = 0 then .command .init else .reject .operandRange

/-- PAR answers the number of set bits modulo 2, which is the exclusive OR of the bits, and writes no state; every `arg` is
an operand (R100, R101). -/
def Obligations.ParAnswersParity : Prop :=
  (∀ (s : State) (x : Byte), s.RomOk →
    exec (.par x) s = .next { s with output := some (.response (.ok (BitVec.ofNat 8 (popcount x % 2)))) } ∧
    s.rom.parAt x = BitVec.ofNat 1 (popcount x % 2) ∧
    s.rom.parAt x = BitVec.ofBool (x[0] ^^ x[1] ^^ x[2] ^^ x[3] ^^ x[4] ^^ x[5] ^^ x[6] ^^ x[7])) ∧
  ∀ arg : Byte, decode (wordOf { op := 0x1, arg := arg }) = .command (.par arg)

/-- Linearity of the parity table over exclusive OR, also under a mask (R107). -/
def Obligations.ParityIsLinear : Prop :=
  ∀ s : State, s.RomOk → ∀ a b m : Byte,
    s.rom.parAt (a ^^^ b) = s.rom.parAt a ^^^ s.rom.parAt b ∧
    s.rom.parAt ((a ^^^ b) &&& m) = s.rom.parAt (a &&& m) ^^^ s.rom.parAt (b &&& m)

/-- ENC answers the codeword whose bit `i` is the parity of `n & G[i]`, zero-extended, and writes no state;
`arg[7:4] ≠ 0` is OperandRange; the bit equations (R102, R121, R122). -/
def Obligations.EncAnswersCodeword : Prop :=
  (∀ (s : State) (n : Nibble), s.RomOk → ∃ x : Codeword,
    exec (.enc n) s = .next { s with output := some (.response (.ok (x.setWidth 8))) } ∧
    (∀ i : Fin 7, BitVec.ofBool (x.getLsbD i) = parity ((n &&& matrixG[i]).setWidth 8)) ∧
    x[0] = n[3] ∧ x[1] = n[2] ∧ x[2] = n[1] ∧ x[3] = (n[3] ^^ n[2] ^^ n[1]) ∧ x[4] = n[0] ∧
    x[5] = (n[3] ^^ n[2] ^^ n[0]) ∧ x[6] = (n[3] ^^ n[1] ^^ n[0])) ∧
  ∀ arg : Byte, decode (wordOf { op := 0x2, arg := arg }) =
    if arg.extractLsb' 4 4 = 0 then .command (.enc (arg.extractLsb' 0 4)) else .reject .operandRange

/-- SYN answers the syndrome whose bit `j` is the parity of `c & H[j]`, zero-extended, and writes no state; `arg[7] = 1`
is OperandRange; the bit equations; the syndrome of every codeword is 0 (R103, R123, R124). -/
def Obligations.SynAnswersSyndrome : Prop :=
  (∀ (s : State) (x : Codeword), s.RomOk → ∃ y : Syndrome,
    exec (.syn x) s = .next { s with output := some (.response (.ok (y.setWidth 8))) } ∧
    (∀ j : Fin 3, BitVec.ofBool (y.getLsbD j) = parity ((x &&& matrixH[j]).setWidth 8)) ∧
    y[0] = (x[0] ^^ x[2] ^^ x[4] ^^ x[6]) ∧ y[1] = (x[0] ^^ x[1] ^^ x[4] ^^ x[5]) ∧
    y[2] = (x[0] ^^ x[1] ^^ x[2] ^^ x[3])) ∧
  (∀ (s : State) (n : Nibble), s.RomOk → s.rom.synAt (s.rom.encAt n) = 0) ∧
  ∀ arg : Byte, decode (wordOf { op := 0x3, arg := arg }) =
    if arg.getLsbD 7 then .reject .operandRange else .command (.syn (arg.extractLsb' 0 7))

/-- ERR answers 0 for syndrome 0 and otherwise exactly bit `7 − s`, and writes no state; `arg[7:3] ≠ 0` is
OperandRange (R125). -/
def Obligations.ErrAnswersErrorMask : Prop :=
  (∀ (s : State) (y : Syndrome), ∃ m : Codeword,
    exec (.err y) s = .next { s with output := some (.response (.ok (m.setWidth 8))) } ∧
    (y = 0 → m = 0) ∧ (y ≠ 0 → ∀ i < 7, m.getLsbD i = decide (i = 7 - y.toNat))) ∧
  ∀ arg : Byte, decode (wordOf { op := 0x4, arg := arg }) =
    if arg.extractLsb' 3 5 = 0 then .command (.err (arg.extractLsb' 0 3)) else .reject .operandRange

/-- DEC flips the bit its syndrome locates and answers bits 4, 2, 1, 0 of the corrected word as nibble bits 0, 1, 2,
3; it writes no state; `arg[7] = 1` is OperandRange (R126). -/
def Obligations.DecAnswersCorrectedNibble : Prop :=
  (∀ (s : State) (c : Codeword), s.RomOk → ∃ (n : Nibble) (d : Codeword),
    exec (.dec c) s = .next { s with output := some (.response (.ok (n.setWidth 8))) } ∧
    d = c ^^^ (if s.rom.synAt c = 0 then 0 else 1#7 <<< (7 - (s.rom.synAt c).toNat)) ∧
    n[0] = d[4] ∧ n[1] = d[2] ∧ n[2] = d[1] ∧ n[3] = d[0]) ∧
  ∀ arg : Byte, decode (wordOf { op := 0x5, arg := arg }) =
    if arg.getLsbD 7 then .reject .operandRange else .command (.dec (arg.extractLsb' 0 7))

/-- Single-error correction and location (R128): DEC is total; DEC of a codeword, intact or with any one bit `p` flipped,
is its nibble; its syndrome is 0 intact and `7 − p` flipped; ENC is injective. -/
def Obligations.SingleErrorIsCorrected : Prop :=
  ∀ s : State, s.RomOk →
    (∀ c : Codeword, ∃ m : Nibble, exec (.dec c) s = .next (s.respondOk (m.setWidth 8))) ∧
    (∀ m n : Nibble, s.rom.encAt m = s.rom.encAt n → m = n) ∧
    ∀ n : Nibble,
      exec (.dec (s.rom.encAt n)) s = .next (s.respondOk (n.setWidth 8)) ∧
      exec (.syn (s.rom.encAt n)) s = .next (s.respondOk 0) ∧
      ∀ p < 7, exec (.dec (s.rom.encAt n ^^^ 1#7 <<< p)) s = .next (s.respondOk (n.setWidth 8)) ∧
        exec (.syn (s.rom.encAt n ^^^ 1#7 <<< p)) s = .next (s.respondOk (BitVec.ofNat 8 (7 - p)))

/-- Silent miscorrection (R129): with two or more bits flipped (`e` is the error) DEC still answers `ok` and changes nothing
else, with a nibble that is not the original; with exactly two the syndrome is not 0 and the nibble is that of a codeword
one bit away from the received word. -/
def Obligations.DoubleErrorIsMiscorrectedSilently : Prop :=
  ∀ s : State, s.RomOk → ∀ (n : Nibble) (e : Codeword), 2 ≤ popcount (e.setWidth 8) →
    ∃ m : Nibble, m ≠ n ∧ exec (.dec (s.rom.encAt n ^^^ e)) s = .next (s.respondOk (m.setWidth 8)) ∧
      (popcount (e.setWidth 8) = 2 → s.rom.synAt (s.rom.encAt n ^^^ e) ≠ 0 ∧
        popcount ((s.rom.encAt m ^^^ (s.rom.encAt n ^^^ e)).setWidth 8) = 1)

/-- The code is perfect (R130): the corrected word always has syndrome 0, the words of syndrome 0 are the codewords,
each word is within one bit of exactly one codeword, whose nibble DEC answers, and the least distance of two codewords
is 3. -/
def Obligations.EveryWordDecodesThroughItsCodeword : Prop :=
  ∀ s : State, s.RomOk →
    (∀ c : Codeword, s.rom.synAt (c ^^^ errorMask (s.rom.synAt c)) = 0 ∧
      s.rom.encAt (s.rom.decAt c) = c ^^^ errorMask (s.rom.synAt c) ∧
      exec (.dec c) s = .next (s.respondOk ((s.rom.decAt c).setWidth 8)) ∧
      (s.rom.synAt c = 0 ↔ ∃ n, s.rom.encAt n = c) ∧
      ∀ n, popcount ((s.rom.encAt n ^^^ c).setWidth 8) ≤ 1 ↔ n = s.rom.decAt c) ∧
    (∀ a b : Nibble, a ≠ b → 3 ≤ popcount ((s.rom.encAt a ^^^ s.rom.encAt b).setWidth 8)) ∧
    ∃ a b : Nibble, popcount ((s.rom.encAt a ^^^ s.rom.encAt b).setWidth 8) = 3

/-- ENC and SYN are linear over exclusive OR, and the syndrome of a corrupted codeword depends on the error alone
(R131). -/
def Obligations.EncAndSynAreLinear : Prop :=
  ∀ s : State, s.RomOk →
    (∀ a b : Nibble, s.rom.encAt (a ^^^ b) = s.rom.encAt a ^^^ s.rom.encAt b) ∧
    (∀ u v : Codeword, s.rom.synAt (u ^^^ v) = s.rom.synAt u ^^^ s.rom.synAt v) ∧
    (∀ (n : Nibble) (e : Codeword), s.rom.synAt (s.rom.encAt n ^^^ e) = s.rom.synAt e) ∧
    ∀ p < 7, s.rom.synAt (1#7 <<< p) = BitVec.ofNat 3 (7 - p)

/-- The commands without an effect on the state (R58, R106, R120): INIT, PAR, ENC, SYN, ERR, DEC and STAT answer
`ok` in every state and change nothing but the response; and the answer of PAR, ENC, SYN, ERR and DEC depends on the
operand and the tables alone. -/
def Obligations.PureCommandsChangeOnlyTheResponse : Prop :=
  (∀ (i : Instr) (s : State), (i = .init ∨ (∃ x, i = .par x) ∨ (∃ n, i = .enc n) ∨ (∃ c, i = .syn c) ∨
      (∃ y, i = .err y) ∨ (∃ c, i = .dec c) ∨ i = .stat) →
    ∃ r, exec i s = .next { s with output := some (.response (.ok r)) }) ∧
  (∀ (i : Instr) (s s' : State), ((∃ x, i = .par x) ∨ (∃ n, i = .enc n) ∨ (∃ c, i = .syn c) ∨ (∃ y, i = .err y) ∨
      (∃ c, i = .dec c)) → s.rom = s'.rom →
    ∃ r, exec i s = .next { s with output := some (.response (.ok r)) } ∧
      exec i s' = .next { s' with output := some (.response (.ok r)) })

/-! ### The bit stream (spec 20, 42) -/

/-- Cursor advance (R144): by 7 bits, offset modulo 8, carry into the byte index; word `k` of a stream from `(0, 0)`
begins at position `7·k`; eight words are seven bytes; a PUT and a GET that answer `ok` advance their cursor so. -/
def Obligations.CursorAdvancesBySevenBits : Prop :=
  (∀ c : Cursor, c.advance.byte = (8 * c.byte + c.off.val + 7) / 8 ∧ c.advance.off.val = (c.off.val + 7) % 8 ∧
    (c.off.val = 0 → c.advance = { byte := c.byte, off := 7 }) ∧
    (c.off.val ≠ 0 → c.advance.byte = c.byte + 1 ∧ c.advance.off.val + 1 = c.off.val)) ∧
  (∀ k : Nat, Cursor.advance^[k] { byte := 0, off := 0 } = Cursor.ofPos (7 * k)) ∧
  (∀ c : Cursor, Cursor.advance^[8] c = { byte := c.byte + 7, off := c.off }) ∧
  (∀ (w : Codeword) (s t : State) (r : Byte), exec (.put w) s = .next t → t.output = some (.response (.ok r)) →
    t.pcur = s.pcur.advance) ∧
  ∀ (s t : State) (r : Byte), exec .get s = .next t → t.output = some (.response (.ok r)) → t.ucur = s.ucur.advance

/-- PUT completes where the packer is in form and the word fits: byte `B` takes the low bits of the word from bit `o`
up, byte `B + 1` the rest, no other byte and nothing else changes, the cursor advances by 7 bits (R141, R142).
`arg[7] = 1` is OperandRange; a word that does not fit is Overflow with nothing written (R143). -/
def Obligations.PutWritesWordAtCursor : Prop :=
  (∀ (s : State) (w : Codeword), s.PackerOk → (∀ n, s.cfg.bufBytes = some n → s.pcur.pos + 7 ≤ 8 * n) →
    ∃ buf : Memory,
      exec (.put w) s =
        .next { s with pbuf := buf, pcur := Cursor.ofPos (s.pcur.pos + 7), output := some (.response (.ok 0)) } ∧
      buf.length = s.pbuf.length + (if s.pcur.off.val = 1 then 0 else 1) ∧
      (∀ r < 8, (buf.getD s.pcur.byte 0).getLsbD r =
        if s.pcur.off.val ≤ r then w.getLsbD (r - s.pcur.off.val) else (s.pbuf.getD s.pcur.byte 0).getLsbD r) ∧
      (2 ≤ s.pcur.off.val → ∀ r < 8, (buf.getD (s.pcur.byte + 1) 0).getLsbD r = w.getLsbD (r + (8 - s.pcur.off.val))) ∧
      ∀ a, a ≠ s.pcur.byte → (2 ≤ s.pcur.off.val → a ≠ s.pcur.byte + 1) → buf[a]? = s.pbuf[a]?) ∧
  (∀ (s : State) (w : Codeword) (n : Nat), s.cfg.bufBytes = some n → 8 * n < s.pcur.pos + 7 →
    exec (.put w) s = .next (s.raise .overflow)) ∧
  ∀ arg : Byte, decode (wordOf { op := 0x6, arg := arg }) =
    if arg.getLsbD 7 then .reject .operandRange else .command (.put (arg.extractLsb' 0 7))

/-- PUT and GET on the stream of bits (R51, R52): bit `i` of the word put is at position cursor + i and every other
position is as before; bit `i` of the word GET answers is the bit at position cursor + i. -/
def Obligations.WordsLieInStreamOrder : Prop :=
  (∀ (s : State) (w : Codeword), s.PackerOk → (∀ n, s.cfg.bufBytes = some n → s.pcur.pos + 7 ≤ 8 * n) →
    ∃ t, exec (.put w) s = .next t ∧
      (∀ i < 7, streamBit t.pbuf (s.pcur.pos + i) = w.getLsbD i) ∧
      ∀ p, (p < s.pcur.pos ∨ s.pcur.pos + 7 ≤ p) → streamBit t.pbuf p = streamBit s.pbuf p) ∧
  ∀ s : State, s.ucur.pos + 7 ≤ 8 * s.ubuf.length → ∃ (t : State) (w : Codeword),
    exec .get s = .next t ∧ t.output = some (.response (.ok (w.setWidth 8))) ∧
    ∀ i < 7, w.getLsbD i = streamBit s.ubuf (s.ucur.pos + i)

/-- Overflow (R143, R184): with a capacity, PUT raises it exactly where `8·PB + PO + 7 > 8·BUF_BYTES`, that is where the
highest byte index the word touches is not below `BUF_BYTES`, and ENCB exactly where `8·PB + PO + 14 > 8·BUF_BYTES`; it
leaves the packer as it was; without a capacity nothing ever answers it. -/
def Obligations.OverflowIsRaisedExactly : Prop :=
  ∀ (s : State), s.PackerOk →
    (∀ n, s.cfg.bufBytes = some n → ∀ w,
      (exec (.put w) s = .next (s.raise .overflow) ↔ 8 * s.pcur.byte + s.pcur.off.val + 7 > 8 * n) ∧
      (exec (.put w) s = .next (s.raise .overflow) ↔
        (s.pcur.off.val ≤ 1 ∧ n ≤ s.pcur.byte) ∨ (2 ≤ s.pcur.off.val ∧ n ≤ s.pcur.byte + 1))) ∧
    (∀ n, s.cfg.bufBytes = some n → ∀ b,
      exec (.encb b) s = .next (s.raise .overflow) ↔ 8 * s.pcur.byte + s.pcur.off.val + 14 > 8 * n) ∧
    ((s.raise .overflow).pbuf = s.pbuf ∧ (s.raise .overflow).pcur = s.pcur) ∧
    (s.cfg.bufBytes = none → ∀ i t, exec i s = .next t → t.output ≠ some (.response (.fault 4)))

/-- GET completes where at least 7 bits remain: it answers the word at the cursor, bit by bit from byte `B` and, beyond
bit 7 of it, byte `B + 1`, moves the cursor by 7 bits and changes nothing else (R145, R146). -/
def Obligations.GetReadsWordAtCursor : Prop :=
  (∀ s : State, s.ucur.pos + 7 ≤ 8 * s.ubuf.length → ∃ w : Codeword,
    exec .get s = .next { s with ucur := Cursor.ofPos (s.ucur.pos + 7), output := some (.response (.ok (w.setWidth 8))) } ∧
    ∀ i < 7, w.getLsbD i =
      if i + s.ucur.off.val < 8 then (s.ubuf.getD s.ucur.byte 0).getLsbD (i + s.ucur.off.val)
      else (s.ubuf.getD (s.ucur.byte + 1) 0).getLsbD (i + s.ucur.off.val - 8)) ∧
  (∀ s : State, 8 * s.ubuf.length < s.ucur.pos + 7 → exec .get s = .next (s.raise .underflow)) ∧
  ∀ arg : Byte, decode (wordOf { op := 0x7, arg := arg }) = if arg = 0 then .command .get else .reject .operandRange

/-- Underflow (R185): GET raises it exactly where `8·len(UBUF) − (8·UB + UO) < 7`, DECB where it is below 14; an empty
buffer and a cursor at or beyond the end are such cases. -/
def Obligations.UnderflowIsRaisedExactly : Prop :=
  ∀ s : State,
    (exec .get s = .next (s.raise .underflow) ↔
      (8 * s.ubuf.length : Int) - (8 * s.ucur.byte + s.ucur.off.val) < 7) ∧
    (exec .decb s = .next (s.raise .underflow) ↔
      (8 * s.ubuf.length : Int) - (8 * s.ucur.byte + s.ucur.off.val) < 14) ∧
    ((s.ubuf = [] ∨ s.ubuf.length ≤ s.ucur.byte) →
      exec .get s = .next (s.raise .underflow) ∧ exec .decb s = .next (s.raise .underflow))

/-- PCLR empties the packer and changes nothing else of the core; its `arg` must be 0 (R148). -/
def Obligations.PclrEmptiesPacker : Prop :=
  (∀ s : State, exec .pclr s =
    .next { s with pbuf := [], pcur := { byte := 0, off := 0 }, output := some (.response (.ok 0x00)) }) ∧
  ∀ arg : Byte, decode (wordOf { op := 0xA, arg := arg }) = if arg = 0 then .command .pclr else .reject .operandRange

/-- STAT answers STATUS, bit by bit, and changes nothing; its `arg` must be 0 (R32, R34, R149). -/
def Obligations.StatAnswersStatus : Prop :=
  (∀ s : State, ∃ v : Byte, exec .stat s = .next { s with output := some (.response (.ok v)) } ∧
    v[0] = true ∧
    v[1] = decide ((7 : Int) ≤ (8 * s.ubuf.length : Int) - (8 * s.ucur.byte + s.ucur.off.val)) ∧
    v[2] = decide ((14 : Int) ≤ (8 * s.ubuf.length : Int) - (8 * s.ucur.byte + s.ucur.off.val)) ∧
    v[3] = false ∧ v[4] = s.fIll ∧ v[5] = s.fOpr ∧ v[6] = s.fUnd ∧ v[7] = s.fOvf) ∧
  ∀ arg : Byte, decode (wordOf { op := 0xB, arg := arg }) = if arg = 0 then .command .stat else .reject .operandRange

/-- The frame of PUT and ENCB where the packer is in form: whatever they answer, only PBUF, PCUR, F_OVF and the response
can change, and of PBUF only the bytes from the cursor's byte to the last byte the one word of PUT, the two words of
ENCB, touch (R140, R141, R161). -/
def Obligations.PackerCommandsFrame : Prop :=
  ∀ (i : Instr) (bits : Nat), ((∃ w, i = .put w) ∧ bits = 7 ∨ (∃ b, i = .encb b) ∧ bits = 14) →
    ∀ s t : State, s.PackerOk → exec i s = .next t →
      t = { s with pbuf := t.pbuf, pcur := t.pcur, fOvf := t.fOvf, output := t.output } ∧
      ∀ a, (a < s.pcur.byte ∨ (s.pcur.pos + bits - 1) / 8 < a) → t.pbuf[a]? = s.pbuf[a]?

/-- The frame of GET and DECB: only UCUR, F_UND and the response can change; no byte of any buffer does (R140, R145,
R162). -/
def Obligations.UnpackerCommandsFrame : Prop :=
  ∀ (i : Instr) (s t : State), (i = .get ∨ i = .decb) → exec i s = .next t →
    t = { s with ucur := t.ucur, fUnd := t.fUnd, output := t.output }

/-- The packer and the unpacker are independent (R66, R140): PUT and ENCB act alike whatever the unpacker holds, GET
and DECB whatever the packer holds. -/
def Obligations.PackerAndUnpackerAreIndependent : Prop :=
  (∀ (i : Instr) (s t : State) (u : Memory) (c : Cursor), ((∃ w, i = .put w) ∨ (∃ b, i = .encb b) ∨ i = .pclr) →
    exec i s = .next t → exec i (s.setUnpacker u c) = .next (t.setUnpacker u c)) ∧
  (∀ (i : Instr) (s t : State) (u : Memory) (c : Cursor), (i = .get ∨ i = .decb) →
    exec i s = .next t → exec i (s.setPacker u c) = .next (t.setPacker u c))

/-- PUT and GET are inverse (R57, R150): words that fit, put into an empty packer, take `(7·k + 7) div 8` bytes with
padding bits 0; loaded into the unpacker they come back in order and the padding bits, at most 7, remain; when the
number of words is 7 modulo 8 they are 7, `UAVAIL` is 1 and one more GET answers 0x00. -/
def Obligations.GetsReturnTheWordsPut : Prop :=
  ∀ (ws : List Codeword) (s : State), (∀ n, s.cfg.bufBytes = some n → 7 * ws.length ≤ 8 * n) →
    s.pbuf = [] → s.pcur = { byte := 0, off := 0 } →
    ∃ t u v, putAll ws s = some t ∧ t.pbuf.length = (7 * ws.length + 7) / 8 ∧
      (∀ p, 7 * ws.length ≤ p → p < 8 * t.pbuf.length → streamBit t.pbuf p = false) ∧
      issueLoad t.pbuf t = some u ∧ getN ws.length u = some (v, ws) ∧
      v.rem = 8 * ((7 * ws.length + 7) / 8) - 7 * ws.length ∧ v.rem ≤ 7 ∧
      (ws.length % 8 = 7 → v.rem = 7 ∧ v.uavail = true ∧ ∃ v', issueOk .get v = some (v', 0x00))

/-! ### DataCodec (spec 43) -/

/-- ENCB completes where the packer is in form and both words fit: the codeword of the high nibble is at the cursor, the
codeword of the low nibble 7 bits further, all other stream bits and all other state are as before, the cursor moves
by 14 bits; where they do not both fit it is Overflow with nothing written; every `arg` is an operand (R53, R161). -/
def Obligations.EncbPutsTwoCodewords : Prop :=
  (∀ (s : State) (b : Byte), s.PackerOk → (∀ n, s.cfg.bufBytes = some n → s.pcur.pos + 14 ≤ 8 * n) →
    ∃ buf : Memory,
      exec (.encb b) s = .next { s with pbuf := buf, pcur := Cursor.ofPos (s.pcur.pos + 14), output := some (.response (.ok 0)) } ∧
      buf.length = (s.pcur.pos + 21) / 8 ∧
      (∀ i < 7, streamBit buf (s.pcur.pos + i) = (s.rom.encAt (b.extractLsb' 4 4)).getLsbD i) ∧
      (∀ i < 7, streamBit buf (s.pcur.pos + 7 + i) = (s.rom.encAt (b.extractLsb' 0 4)).getLsbD i) ∧
      ∀ p, (p < s.pcur.pos ∨ s.pcur.pos + 14 ≤ p) → streamBit buf p = streamBit s.pbuf p) ∧
  (∀ (s : State) (b : Byte) (n : Nat), s.cfg.bufBytes = some n → 8 * n < s.pcur.pos + 14 →
    exec (.encb b) s = .next (s.raise .overflow)) ∧
  ∀ arg : Byte, decode (wordOf { op := 0x8, arg := arg }) = .command (.encb arg)

/-- DECB completes where at least 14 bits remain: it answers the byte whose high nibble is decoded from the word at the
cursor and whose low nibble is decoded from the next, and moves the cursor by 14 bits; nothing else changes; with
fewer bits it is Underflow with nothing consumed; its `arg` must be 0 (R162, R163). -/
def Obligations.DecbTakesTwoWords : Prop :=
  (∀ s : State, s.ucur.pos + 14 ≤ 8 * s.ubuf.length → ∃ w1 w2 : Codeword,
    exec .decb s = .next { s with ucur := Cursor.ofPos (s.ucur.pos + 14), output := some (.response (.ok (s.rom.decAt w1 ++ s.rom.decAt w2 : Byte))) } ∧
    (∀ i < 7, w1.getLsbD i = streamBit s.ubuf (s.ucur.pos + i)) ∧
    (∀ i < 7, w2.getLsbD i = streamBit s.ubuf (s.ucur.pos + 7 + i))) ∧
  (∀ s : State, 8 * s.ubuf.length < s.ucur.pos + 14 → exec .decb s = .next (s.raise .underflow)) ∧
  ∀ arg : Byte, decode (wordOf { op := 0x9, arg := arg }) = if arg = 0 then .command .decb else .reject .operandRange

/-- ENCB that succeeds is ENC, PUT, ENC, PUT (R90): its next state is that of putting the two codewords ENC answers. -/
def Obligations.EncbIsTwoEncsAndPuts : Prop :=
  ∀ (s t : State) (b : Byte), exec (.encb b) s = .next t → t.output = some (.response (.ok 0)) →
    ∃ c1 c2 : Codeword, exec (.enc (b.extractLsb' 4 4)) s = .next (s.respondOk (c1.setWidth 8)) ∧
      exec (.enc (b.extractLsb' 0 4)) s = .next (s.respondOk (c2.setWidth 8)) ∧
      ∃ u, exec (.put c1) s = .next u ∧ exec (.put c2) u = .next t

/-- DECB that succeeds is GET, GET, DEC, DEC and the merge (R90). -/
def Obligations.DecbIsTwoGetsAndDecs : Prop :=
  ∀ (s t : State) (r : Byte), exec .decb s = .next t → t.output = some (.response (.ok r)) →
    ∃ (w1 w2 : Codeword) (n1 n2 : Nibble) (u v : State),
      exec .get s = .next u ∧ u.output = some (.response (.ok (w1.setWidth 8))) ∧
      exec .get u = .next v ∧ v.output = some (.response (.ok (w2.setWidth 8))) ∧
      exec (.dec w1) s = .next (s.respondOk (n1.setWidth 8)) ∧ exec (.dec w2) s = .next (s.respondOk (n2.setWidth 8)) ∧
      r = n1 ++ n2 ∧ t = { v with output := t.output }

/-- ENCODE_DATA of `L` bytes that fit: the packer ends at position `14·L`, the result is PBUF, it has `(14·L + 7) div 8`
bytes with 0, 2, 4 or 6 padding bits, all 0, and byte `k` lies at positions `14·k` to `14·k + 13`, the codeword of its
high nibble first; bytes that do not fit have no result (R53, R164, R166). -/
def Obligations.EncodeDataLayout : Prop :=
  (∀ (bytes : List Byte) (s : State), (∀ n, s.cfg.bufBytes = some n → 14 * bytes.length ≤ 8 * n) →
    ∃ t out, encodeData bytes s = some (t, out) ∧ t.pbuf = out ∧ t.pcur.pos = 14 * bytes.length ∧
      out.length = (14 * bytes.length + 7) / 8 ∧
      8 * out.length - 14 * bytes.length ∈ [0, 2, 4, 6] ∧
      (∀ p, 14 * bytes.length ≤ p → p < 8 * out.length → streamBit out p = false) ∧
      ∀ k (h : k < bytes.length), ∀ i < 7,
        streamBit out (14 * k + i) = (s.rom.encAt (bytes[k].extractLsb' 4 4)).getLsbD i ∧
        streamBit out (14 * k + 7 + i) = (s.rom.encAt (bytes[k].extractLsb' 0 4)).getLsbD i) ∧
  ∀ (bytes : List Byte) (s : State) (n : Nat), s.cfg.bufBytes = some n → 8 * n < 14 * bytes.length →
    encodeData bytes s = none

/-- DECODE_DATA is defined on every buffer that the unpacker accepts, foreign input included: it reads the `(8·L') div 7`
whole words of the stream, merges the nibbles of each pair into a byte, drops an unpaired last word, gives
`(8·L') div 14` bytes, leaves the cursor behind the last whole word and raises no fault (R167, R169). -/
def Obligations.DecodeDataIsTotal : Prop :=
  ∀ (bytes : Memory) (s : State), (∀ n, s.cfg.bufBytes = some n → bytes.length ≤ n) →
    ∃ (t : State) (out : List Byte) (words : List Codeword), decodeData bytes s = some (t, out) ∧
      words.length = 8 * bytes.length / 7 ∧
      (∀ j (h : j < words.length), ∀ i < 7, words[j].getLsbD i = streamBit bytes (7 * j + i)) ∧
      out.length = 8 * bytes.length / 14 ∧
      (∀ k (h : k < out.length) (h1 : 2 * k < words.length) (h2 : 2 * k + 1 < words.length),
        out[k] = s.rom.decAt words[2 * k] ++ s.rom.decAt words[2 * k + 1]) ∧
      t.ucur.pos = 7 * words.length ∧ ∀ f, t.sticky f = s.sticky f

/-- The loop of DECBs gives the same bytes as the loop of GETs, for every buffer, and the two end in the same state but for
the cursor, which stops 7 bits earlier when the number of whole words is odd (R171), and the last response, which the
field `output` keeps (log entry 3). -/
def Obligations.DecbLoopEqualsGetLoop : Prop :=
  ∀ (bytes : Memory) (s : State), (∀ n, s.cfg.bufBytes = some n → bytes.length ≤ n) →
    ∃ t u out, decodeData bytes s = some (t, out) ∧ decodeDataPairs bytes s = some (u, out) ∧
      t.ucur.pos = u.ucur.pos + 7 * (8 * bytes.length / 7 % 2) ∧
      t = { u with ucur := t.ucur, output := t.output }

/-- The round trip (R165): whatever bytes are encoded, if they fit, decoding the result gives them back. -/
def Obligations.DecodeDataInvertsEncodeData : Prop :=
  ∀ (bytes : List Byte) (s : State), s.RomOk → (∀ n, s.cfg.bufBytes = some n → 14 * bytes.length ≤ 8 * n) →
    ∃ t out u, encodeData bytes s = some (t, out) ∧ decodeData out t = some (u, bytes)

/-- The round trip under corruption (R165): decoding gives the bytes back from the encoded buffer, from it with any one
bit flipped, a padding bit included, and from any buffer of its length that differs from it in at most one bit of
each word's range `7·k` to `7·k + 6`. -/
def Obligations.RoundTripSurvivesOneFlipPerWord : Prop :=
  ∀ (bytes : List Byte) (s : State), s.RomOk → (∀ n, s.cfg.bufBytes = some n → 14 * bytes.length ≤ 8 * n) →
    ∃ t out, encodeData bytes s = some (t, out) ∧ (∃ u, decodeData out t = some (u, bytes)) ∧
      (∀ p < 8 * out.length, ∃ u, decodeData (out.modify (p / 8) (· ^^^ 1#8 <<< (p % 8))) t = some (u, bytes)) ∧
      ∀ buf : Memory, buf.length = out.length →
        (∀ k p q, 7 * k ≤ p → p < 7 * k + 7 → 7 * k ≤ q → q < 7 * k + 7 →
          streamBit buf p ≠ streamBit out p → streamBit buf q ≠ streamBit out q → p = q) →
        ∃ u, decodeData buf t = some (u, bytes)
end

