-- ==== Sys2Proof/Laws/PerInstr.lean ====
section
/-! SUPPORT. What holds of every command as syntax, one lemma per command: its word selects the one row of the opcode table
that carries its mnemonic, and passes both checks of WellFormed (spec 30 R82, R84). -/

namespace Sys2Proof.Laws.EncodedForm

-- One theorem is checked after the other: the kernel evaluations below would each hold a thread of their own.
set_option Elab.async false

/-- The word of `i` selects exactly its own row, and is a legal command (R84). -/
def Statement : Instr → Prop := fun i => rowsOf (encode i) = [i.mnemonic] ∧ (fieldsOf (encode i)).wellFormed = true

theorem init : Statement .init := by simp only [Statement]; decide
theorem par : ∀ x, Statement (.par x) := by simp only [Statement]; decide +kernel
theorem enc : ∀ n, Statement (.enc n) := by simp only [Statement]; decide +kernel
theorem syn : ∀ c, Statement (.syn c) := by simp only [Statement]; decide +kernel
theorem err : ∀ s, Statement (.err s) := by simp only [Statement]; decide +kernel
theorem dec : ∀ c, Statement (.dec c) := by simp only [Statement]; decide +kernel
theorem put : ∀ w, Statement (.put w) := by simp only [Statement]; decide +kernel
theorem get : Statement .get := by simp only [Statement]; decide
theorem encb : ∀ b, Statement (.encb b) := by simp only [Statement]; decide +kernel
theorem decb : Statement .decb := by simp only [Statement]; decide
theorem pclr : Statement .pclr := by simp only [Statement]; decide
theorem stat : Statement .stat := by simp only [Statement]; decide

end Sys2Proof.Laws.EncodedForm
end

