-- ==== Sys2Proof/Machine/Assembler.lean ====
section
/-! DEFINITION. The assembler syntax of spec 30 R89: a mnemonic in capitals, for an operation with an operand one unsigned
literal (decimal, `0x` hexadecimal or `0b` binary), `;` before a comment, `->` before a noted response. -/

namespace Sys2Proof.Machine

/-- The text before the first `;` (R89). -/
def cutComment (line : List Char) : List Char := line.takeWhile (· != ';')

/-- The text before the first `->` (R89). -/
def cutResponse : List Char → List Char
  | '-' :: '>' :: _ => []
  | c :: cs => c :: cutResponse cs
  | [] => []

/-- The words of a line, separated by blanks; `acc` is the word being read, backwards. -/
def splitBlanks (acc : List Char) : List Char → List (List Char)
  | [] => if acc.isEmpty then [] else [acc.reverse]
  | c :: cs =>
    if c == ' ' || c == '\t' then
      (if acc.isEmpty then splitBlanks [] cs else acc.reverse :: splitBlanks [] cs)
    else splitBlanks (c :: acc) cs

/-- The value of a digit character: `0` to `9`, `a` to `f`, `A` to `F`. -/
def digitValue (c : Char) : Option Nat :=
  if '0' ≤ c ∧ c ≤ '9' then some (c.toNat - '0'.toNat)
  else if 'a' ≤ c ∧ c ≤ 'f' then some (c.toNat - 'a'.toNat + 10)
  else if 'A' ≤ c ∧ c ≤ 'F' then some (c.toNat - 'A'.toNat + 10)
  else none

/-- The value of a digit string in a base, after the value `acc` of the digits before it. -/
def digitsValue (base : Nat) (acc : Nat) : List Char → Option Nat
  | [] => some acc
  | c :: cs =>
    match digitValue c with
    | some d => if d < base then digitsValue base (base * acc + d) cs else none
    | none => none

/-- An unsigned literal: `0x` hexadecimal, `0b` binary, else decimal (R89). -/
def literalValue : List Char → Option Nat
  | '0' :: 'x' :: d :: ds => digitsValue 16 0 (d :: ds)
  | '0' :: 'b' :: d :: ds => digitsValue 2 0 (d :: ds)
  | d :: ds => digitsValue 10 0 (d :: ds)
  | [] => none

/-- The operations without an operand and their `op` (R82). -/
def bareOps : List (List Char × BitVec 4) :=
  [ (['I', 'N', 'I', 'T'], 0x0), (['G', 'E', 'T'], 0x7), (['D', 'E', 'C', 'B'], 0x9),
    (['P', 'C', 'L', 'R'], 0xA), (['S', 'T', 'A', 'T'], 0xB) ]

/-- The operations with an operand and their `op` (R82). -/
def operandOps : List (List Char × BitVec 4) :=
  [ (['P', 'A', 'R'], 0x1), (['E', 'N', 'C'], 0x2), (['S', 'Y', 'N'], 0x3), (['E', 'R', 'R'], 0x4),
    (['D', 'E', 'C'], 0x5), (['P', 'U', 'T'], 0x6), (['E', 'N', 'C', 'B'], 0x8) ]

/-- The command word of one line; `none` for a line that is no command of R89, or a literal that does not fit
`arg`. A literal beyond the operand's range does assemble, and the core answers OperandRange (95 P4 step 3). -/
def assembleLine (line : List Char) : Option Cmd :=
  match splitBlanks [] (cutResponse (cutComment line)) with
  | [m] => (bareOps.lookup m).map fun op => wordOf { op := op, arg := 0 }
  | [m, lit] =>
    match operandOps.lookup m, literalValue lit with
    | some op, some v => if v < 256 then some (wordOf { op := op, arg := BitVec.ofNat 8 v }) else none
    | _, _ => none
  | _ => none

end Sys2Proof.Machine
end

