-- ==== Sys2Proof/Tests/Slice0.lean ====
section
/-! SUPPORT. Tests: the smoke test of WellFormed, one written-out word per command, single steps with the spec's own expected
values (spec 95), and for every statement with hypotheses a concrete case that meets them. -/

namespace Sys2Proof.Tests

-- One theorem is checked after the other: the kernel evaluations below would each hold a thread of their own.
set_option Elab.async false

open Sys2Proof Sys2Proof.Machine

/-! ### Helpers -/

/-- The state a step answers. -/
def nextOf : Outcome → Option State
  | .next t => some t
  | _ => none

/-- What a step gives back to the host. -/
def outOf (o : Outcome) : Option Output := (nextOf o).bind (·.output)

/-- The packer after a step. -/
def packerOf (o : Outcome) : Option (Memory × Nat × Nat) :=
  (nextOf o).map fun t => (t.pbuf, t.pcur.byte, t.pcur.off.val)

/-- The unpacker's cursor after a step. -/
def ucurOf (o : Outcome) : Option (Nat × Nat) := (nextOf o).map fun t => (t.ucur.byte, t.ucur.off.val)

/-- STATUS after a step. -/
def statusOf (o : Outcome) : Option Byte := (nextOf o).map (·.status)

/-- Reset with a capacity, the packer holding `buf` with cursor `(b, o)`. -/
def packing (cap : Option Nat) (buf : Memory) (b : Nat) (o : Fin 8) : State :=
  { State.resetWith { bufBytes := cap } with pbuf := buf, pcur := { byte := b, off := o } }

/-- Reset, the unpacker holding `buf` with cursor `(b, o)`. -/
def unpacking (buf : Memory) (b : Nat) (o : Fin 8) : State :=
  { State.reset with ubuf := buf, ucur := { byte := b, off := o } }

/-- `ok(res)` as an output. -/
def okOut (res : Byte) : Option Output := some (.response (.ok res))

/-- `fault(code)` as an output. -/
def faultOut (code : BitVec 3) : Option Output := some (.response (.fault code))

/-! ### WellFormed: an ill-formed term for each check (R85, R86), and legal ones at the edge of their range (95 §2.8) -/

theorem test_wellformed_refuses_unassigned : ({ op := 0xC, arg := 0x00 } : Command).wellFormed = false := by decide
theorem test_wellformed_refuses_reserved :
    ([{ op := 0x0, arg := 0x01 }, { op := 0x2, arg := 0x10 }, { op := 0x3, arg := 0x80 }, { op := 0x4, arg := 0x08 },
      { op := 0x5, arg := 0x80 }, { op := 0x6, arg := 0x80 }, { op := 0x7, arg := 0x01 }, { op := 0x9, arg := 0x01 },
      { op := 0xA, arg := 0x01 }, { op := 0xB, arg := 0x01 }] : List Command).all (! ·.wellFormed) = true := by decide
theorem test_wellformed_accepts_edges :
    ([{ op := 0x1, arg := 0xFF }, { op := 0x2, arg := 0x0F }, { op := 0x3, arg := 0x7F }, { op := 0x4, arg := 0x07 },
      { op := 0x6, arg := 0x7F }, { op := 0x8, arg := 0xFF }, { op := 0xB, arg := 0x00 }] : List Command).all
      (·.wellFormed) = true := by decide

/-! ### Decoding: one word per command, written out from R80 and R82 -/

theorem test_decode_init : decode 0b0000_00000000 = .command .init := by decide
theorem test_decode_par : decode 0b0001_00001011 = .command (.par 0x0B) := by decide
theorem test_decode_enc : decode 0b0010_00001010 = .command (.enc 0xA) := by decide
theorem test_decode_syn : decode 0b0011_00100111 = .command (.syn 0x27) := by decide
theorem test_decode_err : decode 0b0100_00000110 = .command (.err 6) := by decide
theorem test_decode_dec : decode 0b0101_00100111 = .command (.dec 0x27) := by decide
theorem test_decode_put : decode 0b0110_01011010 = .command (.put 0x5A) := by decide
theorem test_decode_get : decode 0b0111_00000000 = .command .get := by decide
theorem test_decode_encb : decode 0b1000_10100101 = .command (.encb 0xA5) := by decide
theorem test_decode_decb : decode 0b1001_00000000 = .command .decb := by decide
theorem test_decode_pclr : decode 0b1010_00000000 = .command .pclr := by decide
theorem test_decode_stat : decode 0b1011_00000000 = .command .stat := by decide

/-- R84: the census of the legal words by the opcode table's own sizes. -/
theorem test_table_word : decodeTableWord 16 0x67F = some (.put 0x7F) ∧ decodeTableWord 16 0x680 = none ∧
    decodeTableWord 16 0xC00 = none ∧ decodeTableWord 16 0x1B00 = none := by decide

/-- 95 §2.8: response and STATUS of the decoder's fault vectors, from reset with `HOST_LOAD [FF FF FF FF], (0, 0)`. -/
theorem test_decoder_fault_vectors :
    ([0xC00, 0xCFF, 0xD12, 0xF00].all fun w =>
      let o := issue (.command w) (unpacking [0xFF, 0xFF, 0xFF, 0xFF] 0 0)
      decide (outOf o = faultOut 1 ∧ statusOf o = some 0x17)) = true ∧
    ([0x001, 0x0FF, 0x210, 0x2FF, 0x380, 0x408, 0x580, 0x680, 0x701, 0x901, 0xA01, 0xB01].all fun w =>
      let o := issue (.command w) (unpacking [0xFF, 0xFF, 0xFF, 0xFF] 0 0)
      decide (outOf o = faultOut 2 ∧ statusOf o = some 0x27)) = true := by decide

/-! ### The tables against spec 95 §2 -/

/-- 95 §2.1: the sixteen rows of PAR_ROM, `x = 0` leftmost in each. -/
theorem test_par_rom :
    ((List.range 16).map fun r => (List.range 16).foldl
      (fun acc c => 2 * acc + (parTable.toList.getD (16 * r + c) 0).toNat) 0) =
    [0b0110100110010110, 0b1001011001101001, 0b1001011001101001, 0b0110100110010110,
     0b1001011001101001, 0b0110100110010110, 0b0110100110010110, 0b1001011001101001,
     0b1001011001101001, 0b0110100110010110, 0b0110100110010110, 0b1001011001101001,
     0b0110100110010110, 0b1001011001101001, 0b1001011001101001, 0b0110100110010110] := by decide +kernel

/-- R26, 95 §2.2. -/
theorem test_enc_rom : encTable.toList =
    [0x00, 0x70, 0x4C, 0x3C, 0x2A, 0x5A, 0x66, 0x16, 0x69, 0x19, 0x25, 0x55, 0x43, 0x33, 0x0F, 0x7F] := by
  decide +kernel

/-- 95 §2.3: the eight rows of SYN_ROM, one hexadecimal digit per entry, `c = 0` leftmost. -/
theorem test_syn_rom :
    ((List.range 8).map fun r => (List.range 16).foldl
      (fun acc c => 16 * acc + (synTable.toList.getD (16 * r + c) 0).toNat) 0) =
    [0x0761523443251670, 0x3452610770162543, 0x2543701661073452, 0x1670432552340761,
     0x1670432552340761, 0x2543701661073452, 0x3452610770162543, 0x0761523443251670] := by decide +kernel

/-- 95 §2.5: the eight rows of DEC_ROM, one hexadecimal digit per entry, `c = 0` leftmost. -/
theorem test_dec_rom :
    ((List.range 8).map fun r => (List.range 16).foldl
      (fun acc c => 16 * acc + (decTable.toList.getD (16 * r + c) 0).toNat) 0) =
    [0x000C0A7E094E2EEE, 0x097D7B779959397E, 0x0A4DAA6A48443A4E, 0x1DDD3A7D394D333F,
     0x0CCC2B6C285C222E, 0x1B5CBB7B59552B5F, 0x186C6A668848286F, 0x111D1B6F185F3FFF] := by decide +kernel

/-! ### One step of each command (spec 40 to 43, worked examples; 95 §3) -/

theorem test_init : outOf (exec .init State.reset) = okOut 0x00 := by decide

theorem test_par : [0x00, 0x01, 0x03, 0x07, 0x0B, 0x80, 0xFF].map (fun x => outOf (exec (.par x) State.reset)) =
    [okOut 0, okOut 1, okOut 0, okOut 1, okOut 1, okOut 1, okOut 0] := by decide +kernel

theorem test_enc : [0x0, 0x5, 0xA, 0xF].map (fun n => outOf (exec (.enc n) State.reset)) =
    [okOut 0x00, okOut 0x5A, okOut 0x25, okOut 0x7F] := by decide +kernel

theorem test_syn : [0x00, 0x01, 0x25, 0x27, 0x40, 0x59, 0x7F].map (fun c => outOf (exec (.syn c) State.reset)) =
    [okOut 0, okOut 7, okOut 0, okOut 6, okOut 1, okOut 1, okOut 0] := by decide +kernel

theorem test_err : [0, 1, 2, 3, 4, 5, 6, 7].map (fun s => outOf (exec (.err s) State.reset)) =
    [okOut 0x00, okOut 0x40, okOut 0x20, okOut 0x10, okOut 0x08, okOut 0x04, okOut 0x02, okOut 0x01] := by
  decide +kernel

/-- The last is the double error of R129. -/
theorem test_dec : [0x00, 0x40, 0x25, 0x27, 0x7E, 0x7F, 0x59].map (fun c => outOf (exec (.dec c) State.reset)) =
    [okOut 0x0, okOut 0x0, okOut 0xA, okOut 0xA, okOut 0xF, okOut 0xF, okOut 0x9] := by decide +kernel

/-- 95 §3.1: PUT at the offsets 0, 7, 6, 2, 1, each a single step from the row before. -/
theorem test_put :
    packerOf (exec (.put 0x7F) (packing none [] 0 0)) = some ([0x7F], 0, 7) ∧
    packerOf (exec (.put 0x00) (packing none [0x7F] 0 7)) = some ([0x7F, 0x00], 1, 6) ∧
    packerOf (exec (.put 0x55) (packing none [0x7F, 0x00] 1 6)) = some ([0x7F, 0x40, 0x15], 2, 5) ∧
    packerOf (exec (.put 0x7F) (packing none [0x7F, 0x40, 0x55, 0x15, 0x00, 0x02] 5 2)) =
      some ([0x7F, 0x40, 0x55, 0x15, 0x00, 0xFE, 0x01], 6, 1) ∧
    packerOf (exec (.put 0x33) (packing none [0x7F, 0x40, 0x55, 0x15, 0x00, 0xFE, 0x01] 6 1)) =
      some ([0x7F, 0x40, 0x55, 0x15, 0x00, 0xFE, 0x67], 7, 0) := by decide +kernel

/-- 95 §3.6, steps 3 and 7: at capacity 2 the third word overflows with nothing written, the second fits. -/
theorem test_put_overflow :
    outOf (exec (.put 0x7F) (packing (some 2) [0x96, 0x3F] 1 6)) = faultOut 4 ∧
    packerOf (exec (.put 0x7F) (packing (some 2) [0x96, 0x3F] 1 6)) = some ([0x96, 0x3F], 1, 6) ∧
    packerOf (exec (.put 0x7F) (packing (some 2) [0x7F] 0 7)) = some ([0xFF, 0x3F], 1, 6) := by decide +kernel

/-- 95 §3.2: GET at each offset of `[B7 6D DB]`. -/
theorem test_get :
    ([0, 1, 2, 3, 4, 5, 6, 7] : List (Fin 8)).map (fun o => outOf (exec .get (unpacking [0xB7, 0x6D, 0xDB] 0 o))) =
      [okOut 0x37, okOut 0x5B, okOut 0x6D, okOut 0x36, okOut 0x5B, okOut 0x6D, okOut 0x36, okOut 0x5B] ∧
    ([0, 1, 2, 7] : List (Fin 8)).map (fun o => ucurOf (exec .get (unpacking [0xB7, 0x6D, 0xDB] 0 o))) =
      [some (0, 7), some (1, 0), some (1, 1), some (1, 6)] := by decide +kernel

/-- 95 §3.2: the boundary of the stop rule on `[FF FF]`. -/
theorem test_get_boundary :
    outOf (exec .get (unpacking [0xFF, 0xFF] 1 1)) = okOut 0x7F ∧
    outOf (exec .get (unpacking [0xFF, 0xFF] 1 2)) = faultOut 3 ∧
    ucurOf (exec .get (unpacking [0xFF, 0xFF] 1 2)) = some (1, 2) ∧
    outOf (exec .get (unpacking [0xFF, 0xFF] 5 0)) = faultOut 3 := by decide +kernel

/-- 95 §3.3. -/
theorem test_encb :
    [0x00, 0xFF, 0xA5, 0x0F, 0xF0, 0x01].map (fun b => packerOf (exec (.encb b) State.reset)) =
    [some ([0x00, 0x00], 1, 6), some ([0xFF, 0x3F], 1, 6), some ([0x25, 0x2D], 1, 6), some ([0x80, 0x3F], 1, 6),
     some ([0x7F, 0x00], 1, 6), some ([0x00, 0x38], 1, 6)] := by decide +kernel

/-- 95 §3.6, step 2: no room for both words, nothing written. -/
theorem test_encb_overflow :
    outOf (exec (.encb 0x00) (packing (some 2) [0x96, 0x3F] 1 6)) = faultOut 4 ∧
    packerOf (exec (.encb 0x00) (packing (some 2) [0x96, 0x3F] 1 6)) = some ([0x96, 0x3F], 1, 6) := by decide +kernel

/-- 95 §3.3: intact, one flip, a padding flip, one flip in each word. -/
theorem test_decb :
    [[0x25, 0x2D], [0x27, 0x2D], [0x25, 0x6D], [0x24, 0x0D]].map (fun b => outOf (exec .decb (unpacking b 0 0))) =
      [okOut 0xA5, okOut 0xA5, okOut 0xA5, okOut 0xA5] ∧
    ucurOf (exec .decb (unpacking [0x24, 0x0D] 0 0)) = some (1, 6) := by decide +kernel

/-- 95 §3.2: 14 bits are enough, 13 are not. -/
theorem test_decb_boundary :
    outOf (exec .decb (unpacking [0xFF, 0xFF] 0 2)) = okOut 0xFF ∧
    outOf (exec .decb (unpacking [0xFF, 0xFF] 0 3)) = faultOut 3 ∧
    ucurOf (exec .decb (unpacking [0xFF, 0xFF] 0 3)) = some (0, 3) := by decide +kernel

/-- R148. -/
theorem test_pclr : packerOf (exec .pclr (packing none [0x25, 0x2D] 1 6)) = some ([], 0, 0) := by decide

/-- R149: after reset, and with 16, 9 and 2 bits remaining. -/
theorem test_stat :
    outOf (exec .stat State.reset) = okOut 0x01 ∧
    outOf (exec .stat (unpacking [0x25, 0x2D] 0 0)) = okOut 0x07 ∧
    outOf (exec .stat (unpacking [0x25, 0x2D] 0 7)) = okOut 0x03 ∧
    outOf (exec .stat (unpacking [0x25, 0x2D] 1 6)) = okOut 0x01 := by decide

/-- 95 P4, step 6: the sticky bits of three faults. -/
theorem test_stat_sticky :
    outOf (exec .stat (((State.reset.raise .underflow).raise .operandRange).raise .illegalOp)) = okOut 0x71 ∧
    outOf (exec .stat (State.reset.raise .overflow)) = okOut 0x81 := by decide

/-! ### Host actions, reset, host sequences (R197, R198, R210, R166 to R168) -/

theorem test_host_load :
    outOf (issue (.hostLoad [0x25, 0x2D] 0 8) State.reset) = some (.hostLoad false) ∧
    outOf (issue (.hostLoad [0x25, 0x2D] 9 7) State.reset) = some (.hostLoad true) ∧
    ucurOf (issue (.hostLoad [0x25, 0x2D] 9 7) State.reset) = some (9, 7) ∧
    outOf (issue (.hostLoad [0x25, 0x2D] 0 0) (State.resetWith { bufBytes := some 1 })) = some (.hostLoad false) := by
  decide

theorem test_host_read : outOf (issue .hostRead (packing none [0x25, 0x2D, 0x6F, 0x08] 3 4)) =
    some (.hostRead [0x25, 0x2D, 0x6F, 0x08] { byte := 3, off := 4 }) := by decide

theorem test_reset_clears_sticky : statusOf (issue .reset (State.reset.raise .overflow)) = some 0x01 := by
  decide +kernel

/-- 95 E10 and P3: `A5 3C` encoded; its encoding with stream bit 9 flipped decoded. -/
theorem test_encode_decode :
    (encodeData [0xA5, 0x3C] State.reset).map (·.2) = some [0x25, 0x2D, 0x6F, 0x08] ∧
    (decodeData [0x25, 0x2F, 0x6F, 0x08] State.reset).map (·.2) = some [0xA5, 0x3C] := by decide +kernel

/-- 95 §3.5: foreign input, the third word dropped. -/
theorem test_decode_foreign : (decodeData [0x12, 0x34, 0x56] State.reset).map (·.2) = some [0x78] ∧
    (decodeDataPairs [0x12, 0x34, 0x56] State.reset).map (·.2) = some [0x78] := by decide +kernel

/-- 95 E3: the text "f". -/
theorem test_text : (encodeString ['f'] State.reset).map (·.2) = some [0x66, 0x33] ∧
    (decodeString [0x66, 0x33] State.reset).map (·.2) = some ['f'] := by decide +kernel

/-- R89's examples, and a literal beyond the operand's range (95 P4, step 3). -/
theorem test_assembler :
    assembleLine "ENC 0xA -> 0x25".toList = some 0x20A ∧ assembleLine "PUT 0b1011010 ; a word".toList = some 0x65A ∧
    assembleLine "ENC 10".toList = some 0x20A ∧ assembleLine "GET -> 0x25".toList = some 0x700 ∧
    assembleLine "PCLR".toList = some 0xA00 ∧ assembleLine "ENC 0xF5".toList = some 0x2F5 ∧
    assembleLine "ENC".toList = none ∧ assembleLine "enc 1".toList = none ∧ assembleLine "PCLR 0".toList = none := by
  decide +kernel

/-! ### Witnesses: for each statement with hypotheses, a case that meets them, one per clause, at the clause's boundary -/

/-- Reset in a form that PUT of 0x5A (R141's worked example) starts from. -/
def put1 : State := packing none [0x25] 0 7

/-- A core of capacity 2 with its packer full to position 14 and its unpacker loaded. -/
def full2 : State :=
  { packing (some 2) [0x96, 0x3F] 1 6 with ubuf := [0x25, 0x2D], ucur := { byte := 0, off := 0 } }

theorem test_witness_EncodeInvertsDecode : decode 0x67F = .command (.put 0x7F) := by decide

theorem test_witness_DecoderAgreesWithOpcodeTable :
    decode 0x67F = .command (.put 0x7F) ∧ decode 0x680 = .reject .operandRange ∧ decode 0xC00 = .reject .illegalOp := by
  decide

theorem test_witness_StepRunsDecodedCommand :
    (put1.withInput (.command 0x65A)).input = .command 0x65A :: [] ∧ decode 0x65A = .command (.put 0x5A) ∧
    decodeTableWord 16 0xFFF = none ∧ decodeTableWord 16 0xB00 = some .stat := by decide

theorem test_witness_CommandWordsAreTriedInOrder :
    ((put1.withInput (.command 0xCFF)).input = .command 0xCFF :: [] ∧ (fieldsOf 0xCFF).assigned = false) ∧
    ((put1.withInput (.command 0xBFF)).input = .command 0xBFF :: [] ∧ (fieldsOf 0xBFF).assigned = true ∧
      (fieldsOf 0xBFF).operandInRange = false) ∧
    ((put1.withInput (.command 0xB00)).input = .command 0xB00 :: [] ∧ (fieldsOf 0xB00).wellFormed = true) := by decide

theorem test_witness_UnassignedOperationRaisesIllegalOp :
    (put1.withInput (.command 0xC00)).input = .command 0xC00 :: [] ∧ 0xC#4 ≤ (0xC00 : Cmd).extractLsb' 8 4 ∧
    (put1.withInput (.command 0xFFF)).input = .command 0xFFF :: [] ∧ 0xC#4 ≤ (0xFFF : Cmd).extractLsb' 8 4 := by decide

theorem test_witness_ReservedBitRaisesOperandRange :
    (put1.withInput (.command 0xB01)).input = .command 0xB01 :: [] ∧ (0xB01 : Cmd).extractLsb' 8 4 < 0xC#4 ∧
    (fieldsOf 0xB01).arg &&& (fieldsOf 0xB01).reservedBits ≠ 0 ∧
    (put1.withInput (.command 0x210)).input = .command 0x210 :: [] ∧ (0x210 : Cmd).extractLsb' 8 4 < 0xC#4 ∧
    (fieldsOf 0x210).arg &&& (fieldsOf 0x210).reservedBits ≠ 0 := by decide

theorem test_witness_ResetEventRestoresState : (put1.withInput .reset).input = .reset :: [] := by decide

theorem test_witness_IdleStepChangesNothing : put1.input = [] := by decide

theorem test_witness_StepKeepsPackerInvariant :
    (put1.withInput (.command 0x65A)).PackerOk ∧ ∃ t, step (put1.withInput (.command 0x65A)) = .next t :=
  ⟨by decide, _, rfl⟩

theorem test_witness_StepKeepsCapacityBounds :
    (full2.withInput (.command 0xA00)).PackerOk ∧ (full2.withInput (.command 0xA00)).CapacityOk ∧
    ∃ t, step (full2.withInput (.command 0xA00)) = .next t :=
  ⟨by decide, ⟨by decide, by decide, fun n h => by cases h; decide⟩, _, rfl⟩

theorem test_witness_TablesAreImmutable :
    (∃ t, step (put1.withInput (.command 0x65A)) = .next t) ∧
    (put1.withInput (.command 0x65A)).input.head? ≠ some .reset ∧
    (put1.withInput (.command 0x65A)).rom = Tables.generated := ⟨⟨_, rfl⟩, by decide, rfl⟩

theorem test_witness_StepNeverStops : (full2.withInput (.command 0x600)).PackerOk := by decide

theorem test_witness_StickyBitsRecordFaults :
    (∃ t, step (full2.withInput (.command 0x600)) = .next t) ∧
    (full2.withInput (.command 0x600)).input = .command 0x600 :: [] ∧
    (∃ t, step (full2.withInput .hostRead) = .next t) ∧ (full2.withInput .hostRead).input = .hostRead :: [] ∧
    (∃ t, step (full2.withInput .reset) = .next t) ∧ (full2.withInput .reset).input = .reset :: [] :=
  ⟨⟨_, rfl⟩, rfl, ⟨_, rfl⟩, rfl, ⟨_, rfl⟩, rfl⟩

theorem test_witness_FaultEntryWritesOnlyTheStickyBit :
    (full2.withInput (.command 0x600)).input = .command 0x600 :: [] ∧
    ∃ t, step (full2.withInput (.command 0x600)) = .next t ∧ t.output = some (.response (.fault 4)) :=
  ⟨rfl, _, rfl, by decide +kernel⟩

theorem test_witness_FaultsBelongToTheirCommands :
    (∃ t, exec (.put 0x00) full2 = .next t ∧ t.output = some (.response (.fault 4))) ∧
    (∃ t, exec .decb State.reset = .next t ∧ t.output = some (.response (.fault 3))) :=
  ⟨⟨_, rfl, by decide +kernel⟩, _, rfl, by decide +kernel⟩

theorem test_witness_EveryCommandIsAnswered :
    (full2.withInput (.command 0xFFF)).input = .command 0xFFF :: [] ∧
    ∃ t, step (full2.withInput (.command 0xFFF)) = .next t := ⟨rfl, _, rfl⟩

theorem test_witness_FaultBitsAreSeenByStatAlone : Instr.get ≠ .stat ∧ ∃ t, exec .get full2 = .next t :=
  ⟨by decide, _, rfl⟩

theorem test_witness_CleanStatusMeansNoRefusal :
    (full2.withInput (.command 0x600)).input = .command 0x600 :: [] ∧
    ∃ t, step (full2.withInput (.command 0x600)) = .next t := ⟨rfl, _, rfl⟩

theorem test_witness_OnlyTheNamedInputsWrite :
    (∃ t, step (full2.withInput (.hostLoad [] 9 7)) = .next t ∧ t.ubuf ≠ full2.ubuf ∧ t.ucur ≠ full2.ucur) ∧
    (∃ t, step (full2.withInput (.command 0x700)) = .next t ∧ t.ucur ≠ full2.ucur) ∧
    (∃ t, step (put1.withInput (.command 0x65A)) = .next t ∧ t.pbuf ≠ put1.pbuf) :=
  ⟨⟨_, rfl, by decide +kernel⟩, ⟨_, rfl, by decide +kernel⟩, _, rfl, by decide +kernel⟩

theorem test_witness_HostLoadReplacesUnpacker :
    ((full2.withInput (.hostLoad [1, 2] 9 7)).input = .hostLoad [1, 2] 9 7 :: [] ∧ 7 < 8 ∧
      (∀ n, (full2.withInput (.hostLoad [1, 2] 9 7)).cfg.bufBytes = some n → ([1, 2] : Memory).length ≤ n) ∧
      ([1, 2] : Memory).length ≤ 9) ∧
    ((full2.withInput (.hostLoad [1, 2] 0 8)).input = .hostLoad [1, 2] 0 8 :: [] ∧ 7 < 8) ∧
    ((full2.withInput (.hostLoad [1, 2, 3] 0 7)).input = .hostLoad [1, 2, 3] 0 7 :: [] ∧
      full2.cfg.bufBytes = some 2 ∧ 2 < ([1, 2, 3] : Memory).length) :=
  ⟨⟨rfl, by decide, fun n h => (by cases h; decide), by decide⟩, ⟨rfl, by decide⟩, rfl, rfl, by decide⟩

theorem test_witness_HostReadReturnsPackerBuffer : (full2.withInput .hostRead).input = .hostRead :: [] := rfl

theorem test_witness_ParAnswersParity : State.reset.RomOk := rfl
theorem test_witness_ParityIsLinear : full2.RomOk := rfl
theorem test_witness_EncAnswersCodeword : put1.RomOk := rfl
theorem test_witness_SynAnswersSyndrome : full2.RomOk := rfl
theorem test_witness_ErrAnswersErrorMask : (0 : Syndrome) = 0 ∧ (7 : Syndrome) ≠ 0 ∧ (1 : Syndrome) ≠ 0 := by decide
theorem test_witness_DecAnswersCorrectedNibble : put1.RomOk := rfl
theorem test_witness_SingleErrorIsCorrected : full2.RomOk ∧ 6 < 7 := ⟨rfl, by decide⟩
theorem test_witness_DoubleErrorIsMiscorrectedSilently :
    full2.RomOk ∧ 2 ≤ popcount ((0x03 : Codeword).setWidth 8) ∧ popcount ((0x03 : Codeword).setWidth 8) = 2 ∧
    2 ≤ popcount ((0x7F : Codeword).setWidth 8) := ⟨rfl, by decide, by decide, by decide⟩
theorem test_witness_EveryWordDecodesThroughItsCodeword : full2.RomOk ∧ (0 : Nibble) ≠ 15 := ⟨rfl, by decide⟩
theorem test_witness_EncAndSynAreLinear : full2.RomOk ∧ 6 < 7 := ⟨rfl, by decide⟩

theorem test_witness_PureCommandsChangeOnlyTheResponse :
    (∃ c, Instr.dec 0x27 = .dec c) ∧ full2.rom = State.reset.rom := ⟨⟨_, rfl⟩, rfl⟩

theorem test_witness_CursorAdvancesBySevenBits :
    ({ byte := 3, off := 0 } : Cursor).off.val = 0 ∧ ({ byte := 3, off := 1 } : Cursor).off.val ≠ 0 ∧
    (∃ t, exec (.put 0x5A) put1 = .next t ∧ t.output = some (.response (.ok 0))) ∧
    ∃ t, exec .get full2 = .next t ∧ t.output = some (.response (.ok 0x25)) :=
  ⟨by decide, by decide, ⟨_, rfl, by decide +kernel⟩, _, rfl, by decide +kernel⟩

theorem test_witness_PutWritesWordAtCursor :
    ((packing (some 2) [0x7F] 0 7).PackerOk ∧
      ∀ n, (packing (some 2) [0x7F] 0 7).cfg.bufBytes = some n → (packing (some 2) [0x7F] 0 7).pcur.pos + 7 ≤ 8 * n) ∧
    (full2.cfg.bufBytes = some 2 ∧ 8 * 2 < full2.pcur.pos + 7) :=
  ⟨⟨by decide, fun n h => by cases h; decide⟩, rfl, by decide⟩

theorem test_witness_WordsLieInStreamOrder :
    (put1.PackerOk ∧ ∀ n, put1.cfg.bufBytes = some n → put1.pcur.pos + 7 ≤ 8 * n) ∧
    (unpacking [0xFF, 0xFF] 1 1).ucur.pos + 7 ≤ 8 * (unpacking [0xFF, 0xFF] 1 1).ubuf.length :=
  ⟨⟨by decide, fun n h => by cases h⟩, by decide⟩

theorem test_witness_OverflowIsRaisedExactly :
    full2.PackerOk ∧ full2.cfg.bufBytes = some 2 ∧ put1.PackerOk ∧ put1.cfg.bufBytes = none ∧
    ∃ t, exec (.put 0x5A) put1 = .next t := ⟨by decide, rfl, by decide, rfl, _, rfl⟩

theorem test_witness_GetReadsWordAtCursor :
    (unpacking [0xFF, 0xFF] 1 1).ucur.pos + 7 ≤ 8 * (unpacking [0xFF, 0xFF] 1 1).ubuf.length ∧
    8 * (unpacking [0xFF, 0xFF] 1 2).ubuf.length < (unpacking [0xFF, 0xFF] 1 2).ucur.pos + 7 := by decide

theorem test_witness_UnderflowIsRaisedExactly :
    State.reset.ubuf = [] ∧ (unpacking [0xFF, 0xFF] 2 0).ubuf.length ≤ (unpacking [0xFF, 0xFF] 2 0).ucur.byte := by decide

theorem test_witness_PackerCommandsFrame :
    ((∃ w, Instr.put 0x5A = .put w) ∧ 7 = 7) ∧ ((∃ b, Instr.encb 0xA5 = .encb b) ∧ 14 = 14) ∧ put1.PackerOk ∧
    (∃ t, exec (.put 0x5A) put1 = .next t) ∧ ∃ t, exec (.encb 0xA5) put1 = .next t :=
  ⟨⟨⟨_, rfl⟩, rfl⟩, ⟨⟨_, rfl⟩, rfl⟩, by decide, ⟨_, rfl⟩, _, rfl⟩

theorem test_witness_UnpackerCommandsFrame : (∃ t, exec .get full2 = .next t) ∧ ∃ t, exec .decb full2 = .next t :=
  ⟨⟨_, rfl⟩, _, rfl⟩

theorem test_witness_PackerAndUnpackerAreIndependent :
    (∃ t, exec (.encb 0xA5) put1 = .next t) ∧ ∃ t, exec .decb full2 = .next t := ⟨⟨_, rfl⟩, _, rfl⟩

theorem test_witness_GetsReturnTheWordsPut :
    (∀ n, (packing (some 2) [] 0 0).cfg.bufBytes = some n → 7 * ([0x25, 0x5A] : List Codeword).length ≤ 8 * n) ∧
    (packing (some 2) [] 0 0).pbuf = [] ∧ (packing (some 2) [] 0 0).pcur = { byte := 0, off := 0 } ∧
    ([1, 2, 3, 4, 5, 6, 7] : List Codeword).length % 8 = 7 ∧ State.reset.cfg.bufBytes = none :=
  ⟨fun n h => by cases h; decide, rfl, rfl, rfl, rfl⟩

theorem test_witness_EncbPutsTwoCodewords :
    ((packing (some 2) [] 0 0).PackerOk ∧
      ∀ n, (packing (some 2) [] 0 0).cfg.bufBytes = some n → (packing (some 2) [] 0 0).pcur.pos + 14 ≤ 8 * n) ∧
    ((packing (some 2) [0x7F] 0 7).cfg.bufBytes = some 2 ∧ 8 * 2 < (packing (some 2) [0x7F] 0 7).pcur.pos + 14) :=
  ⟨⟨by decide, fun n h => by cases h; decide⟩, rfl, by decide⟩

theorem test_witness_DecbTakesTwoWords :
    (unpacking [0xFF, 0xFF] 0 2).ucur.pos + 14 ≤ 8 * (unpacking [0xFF, 0xFF] 0 2).ubuf.length ∧
    8 * (unpacking [0xFF, 0xFF] 0 3).ubuf.length < (unpacking [0xFF, 0xFF] 0 3).ucur.pos + 14 := by decide

theorem test_witness_EncbIsTwoEncsAndPuts :
    ∃ t, exec (.encb 0xA5) put1 = .next t ∧ t.output = some (.response (.ok 0)) := ⟨_, rfl, by decide +kernel⟩

theorem test_witness_DecbIsTwoGetsAndDecs :
    ∃ t, exec .decb full2 = .next t ∧ t.output = some (.response (.ok 0xA5)) := ⟨_, rfl, by decide +kernel⟩

theorem test_witness_EncodeDataLayout :
    (∀ n, full2.cfg.bufBytes = some n → 14 * ([0xA5] : List Byte).length ≤ 8 * n) ∧
    (full2.cfg.bufBytes = some 2 ∧ 8 * 2 < 14 * ([0xA5, 0x3C] : List Byte).length) :=
  ⟨fun n h => by cases h; decide, rfl, by decide⟩

theorem test_witness_DecodeDataIsTotal : ∀ n, full2.cfg.bufBytes = some n → ([0xFF, 0xFF] : Memory).length ≤ n :=
  fun n h => by cases h; decide

theorem test_witness_DecbLoopEqualsGetLoop : ∀ n, full2.cfg.bufBytes = some n → ([0xFF] : Memory).length ≤ n :=
  fun n h => by cases h; decide

theorem test_witness_DecodeDataInvertsEncodeData :
    full2.RomOk ∧ ∀ n, full2.cfg.bufBytes = some n → 14 * ([0xA5] : List Byte).length ≤ 8 * n :=
  ⟨rfl, fun n h => by cases h; decide⟩

theorem test_witness_RoundTripSurvivesOneFlipPerWord :
    State.reset.RomOk ∧ (∀ n, State.reset.cfg.bufBytes = some n → 14 * ([0xA5] : List Byte).length ≤ 8 * n) ∧
    15 < 8 * ([0x25, 0x2D] : Memory).length ∧ ([0x24, 0x0D] : Memory).length = ([0x25, 0x2D] : Memory).length ∧
    ((List.range 16).filter fun p => streamBit [0x24, 0x0D] p != streamBit [0x25, 0x2D] p) = [0, 13] :=
  ⟨rfl, fun n h => (by cases h), by decide, rfl, by decide⟩

end Sys2Proof.Tests
end

section
/-! PROOFS. The state after reset and the sticky bits (spec 10 R35, R38). -/

namespace Sys2Proof.Machine

/-- Taking an input off the pending ones is no write to a sticky bit. -/
@[simp] theorem State.setInput_sticky (s : State) (rest : List Input) (j : FaultKind) :
    ({ s with input := rest } : State).sticky j = s.sticky j := by cases j <;> rfl

@[simp] theorem State.resetWith_sticky (cfg : Config) (j : FaultKind) : (State.resetWith cfg).sticky j = false := by
  cases j <;> rfl

/-- No two faults share a code (R181). -/
@[simp] theorem faultCode_inj {j k : FaultKind} : faultCode j = faultCode k ↔ j = k := by
  cases j <;> cases k <;> decide

/-- STATUS bits 4 to 7 are the sticky bits (R36). -/
theorem State.status_sticky_bits (s : State) :
    s.status[4] = s.sticky .illegalOp ∧ s.status[5] = s.sticky .operandRange ∧
      s.status[6] = s.sticky .underflow ∧ s.status[7] = s.sticky .overflow := by
  simp only [← BitVec.getLsbD_eq_getElem, State.status, State.sticky, BitVec.getLsbD_append]
  simp

/-- The sticky bits of `t` are those of `s`, and that of the fault which `t` answers (R35). -/
def StickyRecorded (s t : State) : Prop :=
  ∀ k, t.sticky k = (s.sticky k || decide (t.output = some (.response (.fault (faultCode k)))))

theorem stickyRecorded_raise (s : State) (k : FaultKind) : StickyRecorded s (s.raise k) := by
  intro j
  simp [beq_eq_decide]

/-- An `ok` answer records nothing: the sticky bits of `s` are those of the state `u` that answers. -/
theorem stickyRecorded_respondOk {s u : State} (h : ∀ k, u.sticky k = s.sticky k) (r : Byte) :
    StickyRecorded s (u.respondOk r) := by
  intro k
  simp [h k]

theorem exec_stickyRecorded {i : Instr} {s t : State} (h : exec i s = .next t) : StickyRecorded s t := by
  rcases exec_cases i s with ⟨r, e, -⟩ | ⟨e, -⟩ | ⟨e, -⟩ | ⟨c, r, e, -⟩ | ⟨buf, c, e, -⟩ | ⟨n, e⟩ <;>
    cases e.symm.trans h
  · exact stickyRecorded_respondOk (fun _ => rfl) r
  · exact stickyRecorded_raise s .underflow
  · exact stickyRecorded_raise s .overflow
  · exact stickyRecorded_respondOk (State.setUcur_sticky s c) r
  · exact stickyRecorded_respondOk (State.setPacker_sticky s buf c) 0

theorem runCommand_stickyRecorded {w : Cmd} {s t : State} (h : runCommand w s = .next t) : StickyRecorded s t := by
  unfold runCommand at h
  split at h
  · exact exec_stickyRecorded h
  · cases h
    exact stickyRecorded_raise s _

@[simp] theorem hostLoad_sticky (bytes : Memory) (b o : Nat) (s : State) (k : FaultKind) :
    (hostLoad bytes b o s).sticky k = s.sticky k := by
  rcases hostLoad_cases bytes b o s with ⟨_, -, e⟩ | ⟨-, e⟩ <;> simp [e]

@[simp] theorem hostRead_sticky (s : State) (k : FaultKind) : (hostRead s).sticky k = s.sticky k := by
  simp [hostRead]

@[simp] theorem hardReset_sticky (s : State) (k : FaultKind) : (hardReset s).sticky k = false := by
  simp [hardReset]

/-- Settles O10: each value by evaluation, the sticky bits by `State.resetWith_sticky`. -/
theorem resetValues : Obligations.ResetValues :=
  ⟨rfl, rfl, rfl, rfl, rfl, State.resetWith_sticky Config.default, rfl, rfl, rfl, rfl, rfl⟩

/-- Settles O18: a step performs the pending input; a command records its fault, no host action writes a sticky bit,
and the reset event clears all four. -/
theorem stickyBitsRecordFaults : Obligations.StickyBitsRecordFaults := by
  refine ⟨State.resetWith_sticky Config.default, State.status_sticky_bits, fun s t h => ⟨?_, ?_, ?_⟩⟩
  · intro w rest hin k
    rw [step_input hin] at h
    rw [runCommand_stickyRecorded h k, State.setInput_sticky]
  · intro e rest hin hcmd hreset k
    rw [step_input hin] at h
    cases e with
    | command w => exact absurd rfl (hcmd w)
    | hostLoad bytes b o => cases h; simp
    | hostRead => cases h; simp
    | reset => exact absurd rfl hreset
  · intro rest hin k
    rw [step_input hin] at h
    cases h
    exact hardReset_sticky _ k

end Sys2Proof.Machine
end

section
/-! PROOFS. PUT and GET on the stream of bits (spec 20 R51, R52; 42 R141, R145). -/

namespace Sys2Proof.Machine

/-- PUT's check passes exactly where the 7 bits at the cursor lie within the capacity, if there is one (R143). -/
theorem putOverflows_eq_false_iff (s : State) :
    s.putOverflows = false ↔ ∀ n, s.cfg.bufBytes = some n → s.pcur.pos + 7 ≤ 8 * n := by
  rw [← Bool.not_eq_true, putOverflows_iff]
  push Not
  rfl

/-- What PUT answers where the word fits, with the packer's stream after it: the word at the cursor, every other position
as before (R52, R141). -/
theorem exec_put_stream {s : State} (hp : s.PackerOk) (hf : s.putOverflows = false) (w : Codeword) :
    ∃ buf, exec (.put w) s = .next ((s.setPacker buf s.pcur.advance).respondOk 0) ∧
      ∀ p, streamBit buf p =
        if s.pcur.pos ≤ p ∧ p < s.pcur.pos + 7 then w.getLsbD (p - s.pcur.pos) else streamBit s.pbuf p := by
  obtain ⟨buf, hpack, hexec⟩ := exec_put_fits hp hf w
  obtain ⟨buf', hpack', -, hbit⟩ := packWord_streamBit s.pbuf s.pcur w hp.1 hp.zero
  obtain rfl : buf = buf' := Option.some.inj (hpack.symm.trans hpack')
  exact ⟨buf, hexec, hbit⟩

/-- What GET answers where 7 bits remain, with the word read off the unpacker's stream at the cursor (R52, R145). -/
theorem exec_get_stream {s : State} (h : s.ucur.pos + 7 ≤ 8 * s.ubuf.length) :
    ∃ w : Codeword, exec .get s = .next ((s.setUcur s.ucur.advance).respondOk (zext8 w)) ∧
      ∀ i < 7, w.getLsbD i = streamBit s.ubuf (s.ucur.pos + i) := by
  have hrem : 7 ≤ s.rem := by simp only [State.rem]; omega
  obtain ⟨w, hread, hexec⟩ := exec_get_avail hrem
  obtain ⟨w', hread', hbit⟩ := unpackWord_streamBit s.ubuf s.ucur h
  obtain rfl : w = w' := Option.some.inj (hread.symm.trans hread')
  exact ⟨w, hexec, hbit⟩

/-- Settles O42: the two streams as `exec_put_stream` and `exec_get_stream` give them; the positions of the word put are
those from the cursor to 6 beyond it. -/
theorem wordsLieInStreamOrder : Obligations.WordsLieInStreamOrder := by
  refine ⟨fun s w hp hfit => ?_, fun s h => ?_⟩
  · obtain ⟨buf, hexec, hbit⟩ := exec_put_stream hp ((putOverflows_eq_false_iff s).2 hfit) w
    refine ⟨_, hexec, fun i hi => ?_, fun p hout => ?_⟩
    · rw [State.respondOk_pbuf, State.setPacker_pbuf, hbit, if_pos (by omega), Nat.add_sub_cancel_left]
    · rw [State.respondOk_pbuf, State.setPacker_pbuf, hbit, if_neg (by omega)]
  · obtain ⟨w, hexec, hbit⟩ := exec_get_stream h
    exact ⟨_, w, hexec, State.respondOk_output _ _, hbit⟩

end Sys2Proof.Machine
end

section
/-! PROOFS. The decoder by the fields of the word: which words it rejects, and with which fault, and whose word it accepts
(spec 30 R80, R82, R85, R86, R91; 60 R182, R183). -/

namespace Sys2Proof.Machine

/-- A word is the word of its own two fields (R80). -/
@[simp] theorem wordOf_fieldsOf (w : Cmd) : wordOf (fieldsOf w) = w := by
  simp only [wordOf, fieldsOf]
  rw [BitVec.extractLsb'_append_extractLsb'_eq_extractLsb' (by rfl), BitVec.extractLsb'_eq_self]

/-- Shifting `k` bits out leaves nothing exactly where every bit from bit `k` on is 0. -/
theorem shiftRight_eq_zero_iff_getLsbD (arg : Byte) (k : Nat) :
    arg >>> k = 0#8 ↔ ∀ j, k ≤ j → arg.getLsbD j = false := by
  refine ⟨fun h j hj => ?_, fun h => BitVec.eq_of_getLsbD_eq fun i _ => ?_⟩
  · have hbit := congrArg (·.getLsbD (j - k)) h
    simpa [Nat.add_sub_cancel' hj] using hbit
  · simpa using h (k + i) (Nat.le_add_right k i)

/-- A mask of the bits from bit `k` on selects nothing exactly where shifting `k` bits out leaves nothing. -/
theorem and_allOnes_shiftLeft_eq_zero_iff (arg : Byte) (k : Nat) :
    arg &&& (BitVec.allOnes 8 <<< k) = 0#8 ↔ arg >>> k = 0#8 := by
  rw [shiftRight_eq_zero_iff_getLsbD]
  refine ⟨fun h j hj => ?_, fun h => BitVec.eq_of_getLsbD_eq fun i _ => ?_⟩
  · by_cases h8 : j < 8
    · have hbit := congrArg (·.getLsbD j) h
      simpa [-BitVec.reduceAllOnes, h8, Nat.not_lt.2 hj, Nat.sub_lt_of_lt h8] using hbit
    · exact BitVec.getLsbD_of_ge arg j (Nat.le_of_not_lt h8)
  · by_cases hki : k ≤ i
    · simp [h i hki]
    · simp [Nat.lt_of_not_le hki]

/-- An argument within `k` bits is its low `k` bits, zero-extended. -/
theorem setWidth_extractLsb'_of_shiftRight_eq_zero {arg : Byte} {k : Nat} (h : arg >>> k = 0#8) :
    (arg.extractLsb' 0 k).setWidth 8 = arg := by
  refine BitVec.eq_of_getLsbD_eq fun i hi => ?_
  by_cases hki : k ≤ i
  · simp [(shiftRight_eq_zero_iff_getLsbD arg k).1 h i hki]
  · simp [hi, Nat.lt_of_not_le hki]

/-- The operation `op` takes the low `k` bits of `arg` as its operand and reserves the bits above, and the fields of the
command are `op` and that operand (R82). -/
def TakesOperand (op : BitVec 4) (k : Nat) (mk : BitVec k → Instr) : Prop :=
  ∀ arg : Byte, decodeFields { op, arg } = decodeOperand k mk arg ∧
    Command.reservedBits { op, arg } = BitVec.allOnes 8 <<< k ∧ ∀ x, encodeFields (mk x) = { op, arg := x.setWidth 8 }

/-- Having no operand is having one of 0 bits. -/
theorem takesOperand_zero {op : BitVec 4} (i : Instr) (hd : ∀ arg, decodeFields { op, arg } = decodeNoOperand i arg)
    (hr : ∀ arg, Command.reservedBits { op, arg } = 0xFF) (he : encodeFields i = { op, arg := 0 }) :
    TakesOperand op 0 fun _ => i := by
  refine fun arg => ⟨?_, hr arg, fun x => ?_⟩
  · simp [hd, decodeNoOperand, decodeOperand]
  · rw [he, BitVec.eq_nil x]
    rfl

/-- Each assigned operation has its operand, of 0 to 8 bits (R82). -/
theorem exists_takesOperand (op : BitVec 4) (h : op < 0xC#4) : ∃ k mk, TakesOperand op k mk :=
  match op, h with
  | ⟨0, _⟩, _ => ⟨0, _, takesOperand_zero .init (fun _ => rfl) (fun _ => rfl) rfl⟩
  | ⟨1, _⟩, _ => ⟨8, .par, fun _ => ⟨rfl, rfl, fun x => by rw [BitVec.setWidth_eq]; rfl⟩⟩
  | ⟨2, _⟩, _ => ⟨4, .enc, fun _ => ⟨rfl, rfl, fun _ => rfl⟩⟩
  | ⟨3, _⟩, _ => ⟨7, .syn, fun _ => ⟨rfl, rfl, fun _ => rfl⟩⟩
  | ⟨4, _⟩, _ => ⟨3, .err, fun _ => ⟨rfl, rfl, fun _ => rfl⟩⟩
  | ⟨5, _⟩, _ => ⟨7, .dec, fun _ => ⟨rfl, rfl, fun _ => rfl⟩⟩
  | ⟨6, _⟩, _ => ⟨7, .put, fun _ => ⟨rfl, rfl, fun _ => rfl⟩⟩
  | ⟨7, _⟩, _ => ⟨0, _, takesOperand_zero .get (fun _ => rfl) (fun _ => rfl) rfl⟩
  | ⟨8, _⟩, _ => ⟨8, .encb, fun _ => ⟨rfl, rfl, fun x => by rw [BitVec.setWidth_eq]; rfl⟩⟩
  | ⟨9, _⟩, _ => ⟨0, _, takesOperand_zero .decb (fun _ => rfl) (fun _ => rfl) rfl⟩
  | ⟨10, _⟩, _ => ⟨0, _, takesOperand_zero .pclr (fun _ => rfl) (fun _ => rfl) rfl⟩
  | ⟨11, _⟩, _ => ⟨0, _, takesOperand_zero .stat (fun _ => rfl) (fun _ => rfl) rfl⟩
  | ⟨n + 12, _⟩, h => absurd h (by simp [BitVec.lt_def])

/-- The reserved bits are 0 exactly where `arg` lies within the operand's `k` bits (R86). -/
theorem TakesOperand.operandInRange_iff {op : BitVec 4} {k : Nat} {mk : BitVec k → Instr} (h : TakesOperand op k mk)
    (arg : Byte) : Command.operandInRange { op, arg } = true ↔ arg >>> k = 0#8 := by
  obtain ⟨-, hreserved, -⟩ := h arg
  rw [Command.operandInRange, hreserved, beq_iff_eq]
  exact and_allOnes_shiftLeft_eq_zero_iff arg k

/-- First step of R91: an unassigned operation is IllegalOp, whatever `arg` is (R85). -/
theorem decode_unassigned {w : Cmd} (h : (fieldsOf w).assigned = false) : decode w = .reject .illegalOp := by
  rw [decode]
  generalize fieldsOf w = c at h
  obtain ⟨op, arg⟩ := c
  match op, h with
  | ⟨12, _⟩, _ | ⟨13, _⟩, _ | ⟨14, _⟩, _ | ⟨15, _⟩, _ => rfl
  | ⟨n + 16, hn⟩, _ => exact absurd hn (by omega)

/-- Second step of R91: under an assigned operation a reserved bit that is 1 is OperandRange (R86). -/
theorem decode_reserved {w : Cmd} (ha : (fieldsOf w).assigned = true) (hr : (fieldsOf w).operandInRange = false) :
    decode w = .reject .operandRange := by
  obtain ⟨k, mk, htakes⟩ := exists_takesOperand (fieldsOf w).op (of_decide_eq_true ha)
  obtain ⟨hdecode, -, -⟩ := htakes (fieldsOf w).arg
  have hbits : ¬(fieldsOf w).arg >>> k = 0#8 := by
    rw [← htakes.operandInRange_iff, hr]
    exact Bool.false_ne_true
  rw [decode, hdecode, decodeOperand, if_neg hbits]

/-- Third step of R91: any other word decodes to the command whose word it is. -/
theorem decode_wellFormed {w : Cmd} (h : (fieldsOf w).wellFormed = true) :
    ∃ i, decode w = .command i ∧ encode i = w := by
  obtain ⟨ha, hr⟩ := Bool.and_eq_true_iff.1 h
  obtain ⟨k, mk, htakes⟩ := exists_takesOperand (fieldsOf w).op (of_decide_eq_true ha)
  obtain ⟨hdecode, -, hencode⟩ := htakes (fieldsOf w).arg
  have hbits : (fieldsOf w).arg >>> k = 0#8 := (htakes.operandInRange_iff _).1 hr
  refine ⟨mk ((fieldsOf w).arg.extractLsb' 0 k), ?_, ?_⟩
  · rw [decode, hdecode, decodeOperand, if_pos hbits]
  · rw [encode, hencode, setWidth_extractLsb'_of_shiftRight_eq_zero hbits, wordOf_fieldsOf]

/-- A step on a pending word that decodes to a command is that command's meaning (R91). -/
theorem step_command {s : State} {w : Cmd} {rest : List Input} {i : Instr} (hin : s.input = .command w :: rest)
    (hd : decode w = .command i) : step s = exec i { s with input := rest } := by
  simp [step_input hin, runInput, runCommand, hd]

/-- A step on a pending word that the decoder rejects raises the fault (R91, R186). -/
theorem step_reject {s : State} {w : Cmd} {rest : List Input} {k : FaultKind} (hin : s.input = .command w :: rest)
    (hd : decode w = .reject k) : step s = .next (({ s with input := rest } : State).raise k) := by
  simp [step_input hin, runInput, runCommand, hd]

/-- Settles O7: each case of R91 is a case of the decoder, and the step does what the decoder answers. -/
theorem commandWordsAreTriedInOrder : Obligations.CommandWordsAreTriedInOrder := by
  refine fun s w rest hin => ⟨fun ha => step_reject hin (decode_unassigned ha),
    fun ha hr => step_reject hin (decode_reserved ha hr), fun hwf => ?_⟩
  obtain ⟨i, hdecode, hencode⟩ := decode_wellFormed hwf
  exact ⟨i, hencode, step_command hin hdecode⟩

/-- Settles O8: an `op` of 0xC or more is unassigned, and raising IllegalOp writes the bit and the response. -/
theorem unassignedOperationRaisesIllegalOp : Obligations.UnassignedOperationRaisesIllegalOp := by
  intro s w rest hin hop
  have hunassigned : (fieldsOf w).assigned = false := decide_eq_false (BitVec.not_lt.2 hop)
  rw [step_reject hin (decode_unassigned hunassigned)]
  simp [State.raise, faultCode]

/-- Settles O9: the word passes the first check and not the second, and raising OperandRange writes the bit and the
response. -/
theorem reservedBitRaisesOperandRange : Obligations.ReservedBitRaisesOperandRange := by
  intro s w rest hin hop hreserved
  have hassigned : (fieldsOf w).assigned = true := decide_eq_true hop
  have hrange : (fieldsOf w).operandInRange = false := beq_eq_false_iff_ne.2 hreserved
  rw [step_reject hin (decode_reserved hassigned hrange)]
  simp [State.raise, faultCode]

end Sys2Proof.Machine
end

section
/-! PROOFS. INIT, PAR and the parity table (spec 40 R100, R101, R106, R107), and the decoder on a word put together from its two
fields (spec 30 R80, R82). -/

namespace Sys2Proof.Machine

/-- The two fields of a word are those it was put together from (R80). -/
@[simp] theorem fieldsOf_wordOf (c : Command) : fieldsOf (wordOf c) = c := by
  simp only [fieldsOf, wordOf, BitVec.extractLsb'_append_eq_left, BitVec.extractLsb'_append_eq_right]

@[simp] theorem decode_wordOf (c : Command) : decode (wordOf c) = decodeFields c :=
  congrArg decodeFields (fieldsOf_wordOf c)

/-- An operand as wide as `arg` leaves no bit reserved: every `arg` is an operand (R82). -/
@[simp] theorem decodeOperand_eight (mk : Byte → Instr) (arg : Byte) : decodeOperand 8 mk arg = .command (mk arg) := by
  rw [decodeOperand, if_pos (BitVec.ushiftRight_eq_zero le_rfl), BitVec.extractLsb'_eq_self]

theorem State.RomOk.parAt_eq_parity {s : State} (h : s.RomOk) (x : Byte) : s.rom.parAt x = parity x :=
  h ▸ parAt_generated x

/-- The parity, zero-extended, is the same number in 8 bits (R81, R100). -/
theorem zext8_parity (x : Byte) : zext8 (parity x) = BitVec.ofNat 8 (popcount x % 2) :=
  BitVec.setWidth_ofNat_of_le_of_lt (by decide) (Nat.mod_lt _ Nat.two_pos)

/-- What PAR answers with the tables at their values (R101). -/
theorem exec_par {s : State} (h : s.RomOk) (x : Byte) :
    exec (.par x) s = .next (s.respondOk (BitVec.ofNat 8 (popcount x % 2))) := by
  rw [← zext8_parity, ← h.parAt_eq_parity]
  rfl

/-- INIT answers alone (R106). -/
theorem exec_init (s : State) : exec .init s = .next (s.respondOk 0) := rfl

/-- Linearity of parity (R107): both sides are the exclusive OR of the same sixteen bits. -/
theorem parity_xor (a b : Byte) : parity (a ^^^ b) = parity a ^^^ parity b := by
  simp only [parity_eq_xor, BitVec.getElem_xor, ← BitVec.ofBool_xor_ofBool]
  ac_rfl

/-- A mask selects from an exclusive OR what it selects from each part. -/
theorem xor_and_distrib {k : Nat} (a b m : BitVec k) : (a ^^^ b) &&& m = (a &&& m) ^^^ (b &&& m) := by
  ext i
  simp [Bool.and_xor_distrib_right]

/-- Settles O28: INIT answers alone, and op 0x0 has no operand. -/
theorem initIsNoOp : Obligations.InitIsNoOp :=
  ⟨exec_init, fun _ => decode_wordOf _⟩

/-- Settles O29: the table entry is the parity, which is an exclusive OR of bits; op 0x1 has an operand of 8 bits. -/
theorem parAnswersParity : Obligations.ParAnswersParity := by
  refine ⟨fun s x h => ⟨exec_par h x, h.parAt_eq_parity x, ?_⟩, fun arg => ?_⟩
  · rw [h.parAt_eq_parity, parity_eq_xor]
  · rw [decode_wordOf]
    exact decodeOperand_eight .par arg

/-- Settles O30: parity is linear, and masking distributes over exclusive OR. -/
theorem parityIsLinear : Obligations.ParityIsLinear := by
  intro s h a b m
  simp only [h.parAt_eq_parity]
  exact ⟨parity_xor a b, by rw [xor_and_distrib, parity_xor]⟩

end Sys2Proof.Machine
end

section
/-! PROOFS. ENC, SYN, ERR and DEC one by one: the bits of each result, and which arguments are operands (spec 41 R121 to R126; 30
R82, R86). -/

namespace Sys2Proof.Machine

/-- An argument lies within `k` bits exactly where its field of the bits above is 0. -/
theorem shiftRight_eq_zero_iff_extractLsb' (arg : Byte) {k m : Nat} (hkm : k + m = 8) :
    arg >>> k = 0#8 ↔ arg.extractLsb' k m = 0 := by
  rw [shiftRight_eq_zero_iff_getLsbD]
  refine ⟨fun h => BitVec.eq_of_getLsbD_eq fun i _ => ?_, fun h j hj => ?_⟩
  · simp [h (k + i) (Nat.le_add_right k i)]
  · by_cases hj8 : j < 8
    · have hbit := congrArg (·.getLsbD (j - k)) h
      simpa [Nat.add_sub_cancel' hj, show j - k < m by omega] using hbit
    · exact BitVec.getLsbD_of_ge arg j (Nat.le_of_not_lt hj8)

/-- An argument lies within 7 bits exactly where bit 7 is 0. -/
theorem shiftRight_seven_eq_zero_iff (arg : Byte) : arg >>> 7 = 0#8 ↔ arg.getLsbD 7 = false := by
  rw [shiftRight_eq_zero_iff_getLsbD]
  refine ⟨fun h => h 7 le_rfl, fun h j hj => ?_⟩
  obtain rfl | hj8 := hj.eq_or_lt
  · exact h
  · exact BitVec.getLsbD_of_ge arg j hj8

/-- An operand of `k` bits, by the field of the reserved bits above it (R82, R86). -/
theorem decodeOperand_eq_ite_extractLsb' {k m : Nat} (hkm : k + m = 8) (mk : BitVec k → Instr) (arg : Byte) :
    decodeOperand k mk arg =
      if arg.extractLsb' k m = 0 then .command (mk (arg.extractLsb' 0 k)) else .reject .operandRange := by
  simp only [decodeOperand, shiftRight_eq_zero_iff_extractLsb' arg hkm]

/-- An operand of 7 bits, by the one reserved bit (R82, R86). -/
theorem decodeOperand_seven (mk : Codeword → Instr) (arg : Byte) :
    decodeOperand 7 mk arg =
      if arg.getLsbD 7 then .reject .operandRange else .command (mk (arg.extractLsb' 0 7)) := by
  simp only [decodeOperand, shiftRight_seven_eq_zero_iff]
  cases arg.getLsbD 7 <;> rfl

theorem exec_enc (n : Nibble) (s : State) : exec (.enc n) s = .next (s.respondOk (zext8 (s.rom.encAt n))) := rfl
theorem exec_syn (c : Codeword) (s : State) : exec (.syn c) s = .next (s.respondOk (zext8 (s.rom.synAt c))) := rfl
theorem exec_err (y : Syndrome) (s : State) : exec (.err y) s = .next (s.respondOk (zext8 (errorMask y))) := rfl
theorem exec_dec (c : Codeword) (s : State) : exec (.dec c) s = .next (s.respondOk (zext8 (s.rom.decAt c))) := rfl

/-- A one-bit value is its bit. -/
theorem ofBool_getLsbD_zero (v : BitVec 1) : BitVec.ofBool (v.getLsbD 0) = v := by
  rw [← BitVec.setWidth_one, BitVec.setWidth_eq]

/-- ENC as a matrix product: bit `i` is the parity of the operand under row `i` of G (R121). -/
theorem encAt_getLsbD (n : Nibble) (i : Fin 7) :
    BitVec.ofBool ((Tables.generated.encAt n).getLsbD i) = parity ((n &&& matrixG[i]).setWidth 8) := by
  rw [encAt_generated, encodeBlock, ← rowBit_parTable]
  simp only [BitVec.getLsbD_append]
  fin_cases i <;> exact ofBool_getLsbD_zero _

/-- SYN as a matrix product: bit `j` is the parity of the operand under row `j` of H (R123). -/
theorem synAt_getLsbD (c : Codeword) (j : Fin 3) :
    BitVec.ofBool ((Tables.generated.synAt c).getLsbD j) = parity ((c &&& matrixH[j]).setWidth 8) := by
  rw [synAt_generated, syndromeOf, ← rowBit_parTable]
  simp only [BitVec.getLsbD_append]
  fin_cases j <;> exact ofBool_getLsbD_zero _

/-- The seven bit equations of ENC (R122). -/
theorem encAt_getElem (n : Nibble) :
    let x := Tables.generated.encAt n
    x[0] = n[3] ∧ x[1] = n[2] ∧ x[2] = n[1] ∧ x[3] = (n[3] ^^ n[2] ^^ n[1]) ∧ x[4] = n[0] ∧
      x[5] = (n[3] ^^ n[2] ^^ n[0]) ∧ x[6] = (n[3] ^^ n[1] ^^ n[0]) := by
  simp only [encAt_bits, ← BitVec.getLsbD_eq_getElem, BitVec.getLsbD_append]
  simp

/-- The three bit equations of SYN (R124). -/
theorem synAt_getElem (x : Codeword) :
    let y := Tables.generated.synAt x
    y[0] = (x[0] ^^ x[2] ^^ x[4] ^^ x[6]) ∧ y[1] = (x[0] ^^ x[1] ^^ x[4] ^^ x[5]) ∧
      y[2] = (x[0] ^^ x[1] ^^ x[2] ^^ x[3]) := by
  simp only [synAt_bits, ← BitVec.getLsbD_eq_getElem, BitVec.getLsbD_append]
  simp

/-- The nibble of a corrected word, bit by bit (R126). -/
theorem extractNibble_getElem (d : Codeword) :
    (extractNibble d)[0] = d[4] ∧ (extractNibble d)[1] = d[2] ∧ (extractNibble d)[2] = d[1] ∧
      (extractNibble d)[3] = d[0] := by
  simp only [extractNibble, ← BitVec.getLsbD_eq_getElem, BitVec.getLsbD_append]
  simp

/-- The error mask of a syndrome other than 0 is the one bit it locates (R125). -/
theorem errorMask_getLsbD {y : Syndrome} (hy : y ≠ 0) (i : Nat) :
    (errorMask y).getLsbD i = decide (i = 7 - y.toNat) := by
  have hpos : y.toNat ≠ 0 := BitVec.toNat_ne.1 hy
  rw [errorMask, if_neg hy, ← BitVec.twoPow_eq, BitVec.getLsbD_twoPow, decide_eq_true (by omega), Bool.true_and]
  exact decide_eq_decide.2 eq_comm

/-- Settles O31: bit `i` by `encAt_getLsbD`, the equations by `encAt_getElem`; op 0x2 has an operand of 4 bits. -/
theorem encAnswersCodeword : Obligations.EncAnswersCodeword := by
  refine ⟨fun s n h => ⟨s.rom.encAt n, exec_enc n s, ?_⟩, fun arg => ?_⟩
  · rw [h]
    exact ⟨encAt_getLsbD n, encAt_getElem n⟩
  · rw [decode_wordOf]
    exact decodeOperand_eq_ite_extractLsb' rfl .enc arg

/-- Settles O32: bit `j` by `synAt_getLsbD`, the equations by `synAt_getElem`; op 0x3 has an operand of 7 bits. -/
theorem synAnswersSyndrome : Obligations.SynAnswersSyndrome := by
  refine ⟨fun s c h => ⟨s.rom.synAt c, exec_syn c s, ?_⟩, fun s n h => ?_, fun arg => ?_⟩
  · rw [h]
    exact ⟨synAt_getLsbD c, synAt_getElem c⟩
  · rw [h]
    exact synAt_encAt n
  · rw [decode_wordOf]
    exact decodeOperand_seven .syn arg

/-- Settles O33: the mask by cases on the syndrome; op 0x4 has an operand of 3 bits. -/
theorem errAnswersErrorMask : Obligations.ErrAnswersErrorMask := by
  refine ⟨fun s y => ⟨errorMask y, exec_err y s, fun hy => if_pos hy, fun hy i _ => errorMask_getLsbD hy i⟩,
    fun arg => ?_⟩
  rw [decode_wordOf]
  exact decodeOperand_eq_ite_extractLsb' rfl .err arg

/-- Settles O34: the table entry is the nibble of the word that `errorMask` corrects; op 0x5 has an operand of 7 bits. -/
theorem decAnswersCorrectedNibble : Obligations.DecAnswersCorrectedNibble := by
  refine ⟨fun s c h => ⟨s.rom.decAt c, c ^^^ errorMask (s.rom.synAt c), exec_dec c s, rfl, ?_⟩, fun arg => ?_⟩
  · rw [h, decAt_generated]
    exact extractNibble_getElem _
  · rw [decode_wordOf]
    exact decodeOperand_seven .dec arg

end Sys2Proof.Machine
end

section
/-! PROOFS. The code as a whole: ENC and SYN are linear, the error masks are the words of at most one bit, one for each syndrome,
and so every word has one codeword within one bit of it (spec 41 R128 to R131). -/

namespace Sys2Proof.Machine

/-- A function whose every bit is the parity of the operand under a row of a matrix is linear, as parity is (R104, R107). -/
theorem xor_of_bits_parity {k m : Nat} {f : BitVec k → BitVec m} {rows : Fin m → BitVec k}
    (hf : ∀ x i, BitVec.ofBool ((f x).getLsbD (i : Fin m)) = parity ((x &&& rows i).setWidth 8)) (u v : BitVec k) :
    f (u ^^^ v) = f u ^^^ f v := by
  refine BitVec.eq_of_getLsbD_eq fun i hi => BitVec.ofBool_eq_iff_eq.1 ?_
  have hbit := fun x => hf x ⟨i, hi⟩
  rw [BitVec.getLsbD_xor, ← BitVec.ofBool_xor_ofBool, hbit, hbit, hbit, xor_and_distrib, BitVec.setWidth_xor, parity_xor]

/-- ENC is linear (R131). -/
theorem encAt_xor (a b : Nibble) :
    Tables.generated.encAt (a ^^^ b) = Tables.generated.encAt a ^^^ Tables.generated.encAt b :=
  xor_of_bits_parity encAt_getLsbD a b

/-- SYN is linear (R131). -/
theorem synAt_xor (u v : Codeword) :
    Tables.generated.synAt (u ^^^ v) = Tables.generated.synAt u ^^^ Tables.generated.synAt v :=
  xor_of_bits_parity synAt_getLsbD u v

/-- The syndrome of a corrupted codeword depends on the error alone (R131). -/
theorem synAt_encAt_xor (n : Nibble) (e : Codeword) :
    Tables.generated.synAt (Tables.generated.encAt n ^^^ e) = Tables.generated.synAt e := by
  rw [synAt_xor, synAt_encAt, zero_xor]

/-- Every syndrome is that of its own error mask (R125). -/
theorem synAt_errorMask : ∀ y : Syndrome, Tables.generated.synAt (errorMask y) = y := by decide +kernel

/-- The syndrome of the bit `p` alone locates it (R128). -/
theorem synAt_one_shiftLeft : ∀ p < 7, Tables.generated.synAt (1#7 <<< p) = BitVec.ofNat 3 (7 - p) := by decide +kernel

/-- Settles O38: linearity from the bits of the two functions, and codewords have syndrome 0. -/
theorem encAndSynAreLinear : Obligations.EncAndSynAreLinear := by
  intro s h
  rw [h]
  exact ⟨encAt_xor, synAt_xor, synAt_encAt_xor, synAt_one_shiftLeft⟩

/-- The words of at most one bit are the error masks (R125). -/
theorem popcount_le_one_iff_errorMask_synAt_eq : ∀ e : Codeword,
    popcount (e.setWidth 8) ≤ 1 ↔ errorMask (Tables.generated.synAt e) = e := by
  simp only [synAt_bits]
  decide +kernel

/-- Every error mask but that of syndrome 0 has one bit (R125). -/
theorem popcount_errorMask : ∀ y : Syndrome, y ≠ 0 → popcount ((errorMask y).setWidth 8) = 1 := by decide +kernel

/-- Every codeword but that of nibble 0 has at least three bits (R130). -/
theorem three_le_popcount_encAt : ∀ n : Nibble, n ≠ 0 → 3 ≤ popcount ((Tables.generated.encAt n).setWidth 8) := by
  decide +kernel

/-- A word of syndrome 0 is the codeword of the nibble read off it (R124, R127). -/
theorem encAt_extractNibble : ∀ d : Codeword, Tables.generated.synAt d = 0 →
    Tables.generated.encAt (extractNibble d) = d := by
  simp only [synAt_bits, encAt_bits]
  decide +kernel

/-- No two nibbles have one codeword (R128). -/
theorem encAt_injective : Function.Injective Tables.generated.encAt :=
  Function.LeftInverse.injective decAt_encAt

/-- The corrected word has syndrome 0: the error mask has the syndrome of the word (R130). -/
theorem synAt_corrected (c : Codeword) :
    Tables.generated.synAt (c ^^^ errorMask (Tables.generated.synAt c)) = 0 := by
  rw [synAt_xor, synAt_errorMask, LawfulXor.xor_self]

/-- The corrected word is the codeword of the nibble that DEC answers (R130). -/
theorem encAt_decAt (c : Codeword) :
    Tables.generated.encAt (Tables.generated.decAt c) = c ^^^ errorMask (Tables.generated.synAt c) := by
  rw [decAt_generated]
  exact encAt_extractNibble _ (synAt_corrected c)

/-- The words of syndrome 0 are the codewords (R130). -/
theorem synAt_eq_zero_iff (c : Codeword) :
    Tables.generated.synAt c = 0 ↔ ∃ n, Tables.generated.encAt n = c := by
  refine ⟨fun h => ⟨extractNibble c, encAt_extractNibble c h⟩, ?_⟩
  rintro ⟨n, rfl⟩
  exact synAt_encAt n

/-- The one codeword within one bit of a word is that of the nibble DEC answers (R130): the difference to it has the
syndrome of the word, and is the error mask of its syndrome where it has at most one bit. -/
theorem popcount_encAt_xor_le_one_iff (n : Nibble) (c : Codeword) :
    popcount ((Tables.generated.encAt n ^^^ c).setWidth 8) ≤ 1 ↔ n = Tables.generated.decAt c := by
  calc popcount ((Tables.generated.encAt n ^^^ c).setWidth 8) ≤ 1
    _ ↔ errorMask (Tables.generated.synAt c) = Tables.generated.encAt n ^^^ c := by
      rw [popcount_le_one_iff_errorMask_synAt_eq, synAt_encAt_xor]
    _ ↔ Tables.generated.encAt n = Tables.generated.encAt (Tables.generated.decAt c) := by
      rw [encAt_decAt, eq_comm, xor_eq_iff_left_eq, xor_comm c]
    _ ↔ n = Tables.generated.decAt c := encAt_injective.eq_iff

/-- Codewords of different nibbles differ in at least three bits: their difference is a codeword (R130). -/
theorem three_le_popcount_encAt_xor {a b : Nibble} (h : a ≠ b) :
    3 ≤ popcount ((Tables.generated.encAt a ^^^ Tables.generated.encAt b).setWidth 8) := by
  rw [← encAt_xor]
  exact three_le_popcount_encAt _ (mt xor_eq_zero_iff.1 h)

/-- A word of two bits is no codeword (R129). -/
theorem synAt_ne_zero_of_popcount_eq_two {e : Codeword} (h : popcount (e.setWidth 8) = 2) :
    Tables.generated.synAt e ≠ 0 := by
  intro hsyn
  obtain ⟨n, rfl⟩ := (synAt_eq_zero_iff e).1 hsyn
  by_cases hn : n = 0
  · subst hn
    exact absurd h (by decide +kernel)
  · have := three_le_popcount_encAt n hn
    omega

/-- Settles O35: ENC has DEC as its inverse, `decAt_flip` corrects one bit and `synAt_one_shiftLeft` locates it. -/
theorem singleErrorIsCorrected : Obligations.SingleErrorIsCorrected := by
  intro s h
  refine ⟨fun c => ⟨s.rom.decAt c, exec_dec c s⟩, ?_⟩
  simp only [exec_dec, exec_syn]
  rw [h]
  refine ⟨fun _ _ he => encAt_injective he, fun n => ⟨by rw [decAt_encAt]; rfl, by rw [synAt_encAt]; rfl, ?_⟩⟩
  intro p hp
  refine ⟨by rw [decAt_flip n ⟨p, hp⟩]; rfl, ?_⟩
  have hres : zext8 (BitVec.ofNat 3 (7 - p)) = BitVec.ofNat 8 (7 - p) :=
    BitVec.setWidth_ofNat_of_le_of_lt (by decide) (by omega)
  rw [synAt_encAt_xor, synAt_one_shiftLeft p hp, hres]

/-- Settles O36: DEC answers the original nibble only within one bit of its codeword; an error of two bits has a syndrome
other than 0, whose error mask is the one bit between the word and the codeword DEC takes it for. -/
theorem doubleErrorIsMiscorrectedSilently : Obligations.DoubleErrorIsMiscorrectedSilently := by
  intro s h n e he
  refine ⟨s.rom.decAt (s.rom.encAt n ^^^ e), ?_, exec_dec _ s, fun h2 => ?_⟩
  · rw [h]
    intro hn
    have hle := (popcount_encAt_xor_le_one_iff n _).2 hn.symm
    rw [xor_cancel_left] at hle
    omega
  · rw [h, encAt_decAt, synAt_encAt_xor, xor_xor_cancel_comm]
    have hsyn := synAt_ne_zero_of_popcount_eq_two h2
    exact ⟨hsyn, popcount_errorMask _ hsyn⟩

/-- Settles O37: the corrected word is a codeword, the only one within one bit; the least distance is 3, as between the
codewords of 0 and 1. -/
theorem everyWordDecodesThroughItsCodeword : Obligations.EveryWordDecodesThroughItsCodeword := by
  intro s h
  simp only [exec_dec]
  rw [h]
  refine ⟨fun c => ⟨synAt_corrected c, encAt_decAt c, rfl, synAt_eq_zero_iff c,
    fun n => popcount_encAt_xor_le_one_iff n c⟩, fun a b => three_le_popcount_encAt_xor, 0, 1, ?_⟩
  decide +kernel

end Sys2Proof.Machine
end

section
/-! PROOFS. PUT and GET byte by byte: how the two cursors move, what the bytes at the cursor hold, and where PUT and ENCB
overflow (spec 42 R141 to R147; 43 R161; 60 R184). -/

namespace Sys2Proof.Machine

/-- An advance of 7 bits, one bit back within the byte unless it crosses into the next (R144). -/
theorem Cursor.advance_cases (c : Cursor) :
    (c.off.val = 0 → c.advance = { byte := c.byte, off := 7 }) ∧
    (c.off.val ≠ 0 → c.advance.byte = c.byte + 1 ∧ c.advance.off.val + 1 = c.off.val) := by
  refine ⟨fun h => Cursor.ext_pos ?_, fun h => ⟨?_, ?_⟩⟩
  · rw [Cursor.pos_advance, Cursor.pos, Cursor.pos, h]
    rfl
  all_goals
    simp only [Cursor.advance]
    omega

/-- `k` advances move a cursor by `7·k` bits (R144). -/
theorem Cursor.iterate_advance (k : Nat) (c : Cursor) : Cursor.advance^[k] c = Cursor.ofPos (c.pos + 7 * k) := by
  induction k with
  | zero => exact (Cursor.ofPos_pos c).symm
  | succ k ih => rw [Function.iterate_succ_apply', ih, Cursor.advance_eq, Cursor.pos_ofPos, Nat.mul_succ, Nat.add_assoc]

/-- Everything PUT can do: raise Overflow, replace the packer's buffer and advance its cursor, or stop (R141). -/
theorem exec_put_cases (w : Codeword) (s : State) :
    (s.putOverflows = true ∧ exec (.put w) s = .next (s.raise .overflow)) ∨
    (∃ buf, exec (.put w) s = .next ((s.setPacker buf s.pcur.advance).respondOk 0)) ∨
    ∃ n, exec (.put w) s = .fault (.bufferBounds n) := by
  simp only [exec, execPut]
  split
  · exact .inl ⟨‹_›, rfl⟩
  · cases h : s.packNext w with
    | none => exact .inr (.inr ⟨_, rfl⟩)
    | some t =>
      obtain ⟨buf, rfl⟩ := packNext_shape h
      exact .inr (.inl ⟨buf, rfl⟩)

/-- Everything GET can do: raise Underflow, or answer a word and advance the unpacker's cursor, or stop (R145). -/
theorem exec_get_cases (s : State) :
    (s.rem < 7 ∧ exec .get s = .next (s.raise .underflow)) ∨
    (∃ w : Codeword, exec .get s = .next ((s.setUcur s.ucur.advance).respondOk (zext8 w))) ∨
    ∃ n, exec .get s = .fault (.bufferBounds n) := by
  simp only [exec, execGet]
  split
  · exact .inl ⟨‹_›, rfl⟩
  · cases h : s.unpackNext with
    | none => exact .inr (.inr ⟨_, rfl⟩)
    | some q =>
      obtain ⟨w, t⟩ := q
      obtain rfl := unpackNext_shape h
      exact .inr (.inl ⟨w, rfl⟩)

/-- Settles O40: the cases of one advance, `k` advances by `Cursor.iterate_advance`, and a PUT or GET that answers `ok` is
the one case of its command that moves the cursor. -/
theorem cursorAdvancesBySevenBits : Obligations.CursorAdvancesBySevenBits := by
  refine ⟨fun c => ⟨rfl, rfl, c.advance_cases⟩, fun k => ?_, fun c => ?_, fun w s t r h hok => ?_, fun s t r h hok => ?_⟩
  · rw [Cursor.iterate_advance]
    exact congrArg Cursor.ofPos (Nat.zero_add _)
  · rw [Cursor.iterate_advance]
    apply Cursor.ext_pos
    rw [Cursor.pos_ofPos]
    simp only [Cursor.pos]
    omega
  · rcases exec_put_cases w s with ⟨-, e⟩ | ⟨buf, e⟩ | ⟨n, e⟩ <;> cases e.symm.trans h
    · cases hok
    · rfl
  · rcases exec_get_cases s with ⟨-, e⟩ | ⟨w, e⟩ | ⟨n, e⟩ <;> cases e.symm.trans h
    · cases hok
    · rfl

/-- Byte `B` after PUT: its bits below the cursor as before, the low bits of the word from the cursor on, where the old
byte held only 0 (R31, R142). -/
theorem State.PackerOk.getLsbD_or_lowPart {s : State} (hp : s.PackerOk) (w : Codeword) {r : Nat} (hr : r < 8) :
    (s.pbuf.getD s.pcur.byte 0 ||| lowPart w s.pcur.off).getLsbD r =
      if s.pcur.off.val ≤ r then w.getLsbD (r - s.pcur.off.val) else (s.pbuf.getD s.pcur.byte 0).getLsbD r := by
  rw [BitVec.getLsbD_or, lowPart_bit s.pcur.off ⟨r, hr⟩ w]
  by_cases hin : s.pcur.off.val ≤ r
  · have hzero : (s.pbuf.getD s.pcur.byte 0).getLsbD r = false := by
      rw [← streamBit_at _ _ _ hr]
      exact hp.zero _ (Nat.add_le_add_left hin _)
    rw [hzero, if_pos hin, decide_eq_true hin, Bool.false_or, Bool.true_and]
  · rw [if_neg hin, decide_eq_false hin, Bool.false_and, Bool.or_false]

/-- What PUT answers where the word fits, with the packer's buffer after it byte by byte (R141, R142). -/
theorem exec_put_bytes {s : State} (hp : s.PackerOk) (hf : s.putOverflows = false) (w : Codeword) :
    ∃ buf, exec (.put w) s = .next ((s.setPacker buf s.pcur.advance).respondOk 0) ∧
      buf.length = (s.pcur.pos + 14) / 8 ∧
      ∀ q, buf[q]? =
        if q = s.pcur.byte then some (s.pbuf.getD q 0 ||| lowPart w s.pcur.off)
        else if q = s.pcur.byte + 1 ∧ 2 ≤ s.pcur.off.val then some (highPart w s.pcur.off)
        else s.pbuf[q]? := by
  obtain ⟨buf, hpack, hexec⟩ := exec_put_fits hp hf w
  obtain ⟨buf', hpack', hlen, hget⟩ := packWord_getElem? s.pbuf s.pcur w hp.1
  obtain rfl : buf = buf' := Option.some.inj (hpack.symm.trans hpack')
  exact ⟨buf, hexec, hlen, hget⟩

/-- PUT's check comes first: where it fails, Overflow is raised and nothing is written (R143). -/
theorem exec_put_overflow {s : State} (h : s.putOverflows = true) (w : Codeword) :
    exec (.put w) s = .next (s.raise .overflow) := by
  simp only [exec, execPut, h, if_true]

/-- Settles O41: the bytes of `exec_put_bytes`; the old byte `B` has no bit from the cursor on. -/
theorem putWritesWordAtCursor : Obligations.PutWritesWordAtCursor := by
  refine ⟨fun s w hp hfit => ?_, fun s w n hn hover => ?_, fun arg => ?_⟩
  · obtain ⟨buf, hexec, hlen, hget⟩ := exec_put_bytes hp ((putOverflows_eq_false_iff s).2 hfit) w
    refine ⟨buf, ?_, ?_, fun r hr => ?_, fun h2 r hr => ?_, fun a hB hB1 => ?_⟩
    · rw [hexec, Cursor.advance_eq]
      rfl
    · rw [hlen, hp.1, Cursor.pos]
      split <;> omega
    · rw [List.getD_eq_getElem?_getD, hget, if_pos rfl]
      exact hp.getLsbD_or_lowPart w hr
    · rw [List.getD_eq_getElem?_getD, hget, if_neg (Nat.succ_ne_self _), if_pos ⟨rfl, h2⟩]
      exact highPart_bit s.pcur.off ⟨r, hr⟩ w
    · rw [hget, if_neg hB, if_neg fun h => hB1 h.2 h.1]
  · exact exec_put_overflow ((putOverflows_iff s).2 ⟨n, hn, hover⟩) w
  · rw [decode_wordOf]
    exact decodeOperand_seven .put arg

/-- An `ok` answer is no fault. -/
theorem respondOk_ne_raise (s t : State) (r : Byte) (k : FaultKind) : t.respondOk r ≠ s.raise k := fun h =>
  nomatch congrArg State.output h

/-- PUT raises Overflow exactly where its check fails (R143). -/
theorem exec_put_overflow_iff (s : State) (w : Codeword) :
    exec (.put w) s = .next (s.raise .overflow) ↔ s.putOverflows = true := by
  refine ⟨fun h => ?_, fun h => exec_put_overflow h w⟩
  rcases exec_put_cases w s with ⟨hover, -⟩ | ⟨buf, e⟩ | ⟨n, e⟩
  · exact hover
  · exact absurd (Host.Outcome.next.inj (e.symm.trans h)) (respondOk_ne_raise _ _ _ _)
  · cases e.symm.trans h

/-- ENCB raises Overflow exactly where its check fails (R161, R184). -/
theorem exec_encb_overflow_iff {s : State} (hp : s.PackerOk) (b : Byte) :
    exec (.encb b) s = .next (s.raise .overflow) ↔ s.pairOverflows = true := by
  refine ⟨fun h => ?_, fun h => by simp only [exec, execEncb, h, if_true]⟩
  by_contra hfit
  obtain ⟨buf, e, -⟩ := exec_encb_stream hp (Bool.eq_false_of_not_eq_true hfit) b
  exact respondOk_ne_raise _ _ _ _ (Host.Outcome.next.inj (e.symm.trans h))

/-- Without a capacity no command answers Overflow (R184). -/
theorem exec_ne_overflow {s t : State} {i : Instr} (hcap : s.cfg.bufBytes = none) (h : exec i s = .next t) :
    t.output ≠ some (.response (.fault (faultCode .overflow))) := by
  rcases exec_cases i s with ⟨r, e, -⟩ | ⟨e, -⟩ | ⟨e, hne, -⟩ | ⟨c, r, e, -⟩ | ⟨buf, c, e, -⟩ | ⟨n, e⟩ <;>
    cases e.symm.trans h
  · simp
  · simp
  · exact absurd hcap hne
  · simp
  · simp

/-- Settles O43: each command's check as a bound on the cursor's position, and `exec_ne_overflow`. -/
theorem overflowIsRaisedExactly : Obligations.OverflowIsRaisedExactly := by
  intro s hp
  have ho := s.pcur.off.isLt
  refine ⟨fun n hn w => ?_, fun n hn b => ?_, ⟨rfl, rfl⟩, fun hcap i t h => exec_ne_overflow hcap h⟩
  · have hput : exec (.put w) s = .next (s.raise .overflow) ↔ 8 * n < s.pcur.pos + 7 := by
      simp [exec_put_overflow_iff, putOverflows_iff, hn]
    rw [hput, Cursor.pos]
    exact ⟨Iff.rfl, by omega⟩
  · simp [exec_encb_overflow_iff hp, pairOverflows_iff, hn, Cursor.pos]

/-- The bits of the stream from a cursor on lie in its byte and the next (R51). -/
theorem streamBit_pos_add (buf : Memory) (c : Cursor) {i : Nat} (hi : i ≤ 8) :
    streamBit buf (c.pos + i) =
      if i + c.off.val < 8 then (buf.getD c.byte 0).getLsbD (i + c.off.val)
      else (buf.getD (c.byte + 1) 0).getLsbD (i + c.off.val - 8) := by
  have ho := c.off.isLt
  split
  · rw [← streamBit_at _ _ _ ‹_›, Cursor.pos]
    congr 1
    omega
  · rw [← streamBit_at _ _ _ (by omega), Cursor.pos]
    congr 1
    omega

/-- GET's check comes first: with fewer than 7 bits remaining Underflow is raised and nothing is written (R147). -/
theorem exec_get_underflow {s : State} (h : s.rem < 7) : exec .get s = .next (s.raise .underflow) := by
  simp only [exec, execGet, h, if_true]

/-- Settles O44: the word of `exec_get_stream`, its bits found in the two bytes at the cursor. -/
theorem getReadsWordAtCursor : Obligations.GetReadsWordAtCursor := by
  refine ⟨fun s hrem => ?_, fun s hend => exec_get_underflow ?_, fun _ => decode_wordOf _⟩
  · obtain ⟨w, hexec, hbit⟩ := exec_get_stream hrem
    refine ⟨w, ?_, fun i hi => ?_⟩
    · rw [hexec, Cursor.advance_eq]
      rfl
    · rw [hbit i hi, streamBit_pos_add _ _ (by omega)]
  · rw [State.rem]
    omega

end Sys2Proof.Machine
end

section
/-! PROOFS. PCLR and STAT (spec 10 R32, R34; 42 R148, R149). -/

namespace Sys2Proof.Machine

/-- Settles O46: PCLR writes the packer and the response alone, and op 0xA has no operand. -/
theorem pclrEmptiesPacker : Obligations.PclrEmptiesPacker :=
  ⟨fun _ => rfl, fun _ => decode_wordOf _⟩

/-- STATUS bits 0 to 3: READY, the two availability flags and a 0 (R32, R36). -/
theorem State.status_flag_bits (s : State) :
    s.status[0] = true ∧ s.status[1] = s.uavail ∧ s.status[2] = s.upair ∧ s.status[3] = false := by
  simp only [← BitVec.getLsbD_eq_getElem, State.status, BitVec.getLsbD_append]
  simp

/-- At least `k` bits remain exactly where the end of the buffer is `k` or more bits beyond the cursor (R34): what is cut
off at 0 makes no difference. -/
theorem State.le_rem_iff (s : State) {k : Nat} (hk : 0 < k) :
    k ≤ s.rem ↔ (k : Int) ≤ (8 * s.ubuf.length : Int) - (8 * s.ucur.byte + s.ucur.off.val) := by
  rw [State.rem, Cursor.pos]
  omega

/-- Settles O47: the flags by `State.status_flag_bits`, the sticky bits by `State.status_sticky_bits`; op 0xB has no
operand. -/
theorem statAnswersStatus : Obligations.StatAnswersStatus := by
  refine ⟨fun s => ⟨s.status, rfl, ?_⟩, fun _ => decode_wordOf _⟩
  obtain ⟨hready, havail, hpair, hzero⟩ := s.status_flag_bits
  refine ⟨hready, ?_, ?_, hzero, s.status_sticky_bits⟩
  · rw [havail]
    exact decide_eq_decide.2 (s.le_rem_iff (by decide))
  · rw [hpair]
    exact decide_eq_decide.2 (s.le_rem_iff (by decide))

end Sys2Proof.Machine
end

section
/-! PROOFS. The decoder on the word of a command (spec 30 R80, R82), and the host's PUTs and GETs, which are inverse (42
R150). -/

namespace Sys2Proof.Machine

/-- An operand of at most 8 bits, zero-extended into `arg`, is decoded to itself (R82). -/
theorem decodeOperand_setWidth {k : Nat} (hk : k ≤ 8) (mk : BitVec k → Instr) (x : BitVec k) :
    decodeOperand k mk (x.setWidth 8) = .command (mk x) := by
  have hshift : (x.setWidth 8) >>> k = 0#8 := by
    rw [shiftRight_eq_zero_iff_getLsbD]
    intro j hj
    simp [BitVec.getLsbD_of_ge x j hj]
  have hcut : (x.setWidth 8).extractLsb' 0 k = x := by
    refine BitVec.eq_of_getLsbD_eq fun j hj => ?_
    simp [hj, Nat.lt_of_lt_of_le hj hk]
  rw [decodeOperand, if_pos hshift, hcut]

/-- Decoding the word of a command gives the command (R80, R82). -/
theorem decode_encode (i : Instr) : decode (encode i) = .command i := by
  rw [encode, decode_wordOf]
  cases i with
  | par x => exact decodeOperand_eight .par x
  | enc n => exact decodeOperand_setWidth (by decide) .enc n
  | syn c => exact decodeOperand_setWidth (by decide) .syn c
  | err y => exact decodeOperand_setWidth (by decide) .err y
  | dec c => exact decodeOperand_setWidth (by decide) .dec c
  | put w => exact decodeOperand_setWidth (by decide) .put w
  | encb b => exact decodeOperand_eight .encb b
  | init | get | decb | pclr | stat => rfl

/-- An empty packer is in form (R31, R38). -/
theorem packerOk_of_empty {s : State} (hbuf : s.pbuf = []) (hcur : s.pcur = { byte := 0, off := 0 }) : s.PackerOk := by
  refine ⟨?_, fun p hp => ?_⟩
  · rw [hbuf, hcur]
    rfl
  · rw [hbuf] at hp
    exact absurd hp (Nat.not_lt_zero p)

/-- GET where the stream holds only 0 from the cursor on, as in padding (R150). -/
theorem issueOk_get_zero {s : State} (havail : s.ucur.pos + 7 ≤ 8 * s.ubuf.length)
    (hzero : ∀ i < 7, streamBit s.ubuf (s.ucur.pos + i) = false) : ∃ t, issueOk .get s = some (t, 0x00) := by
  obtain ⟨w, hexec, hbit⟩ := exec_get_stream havail
  obtain rfl : w = 0#7 := Codeword.ext_bits fun i hi => by rw [hbit i hi, hzero i hi, BitVec.getLsbD_zero]
  exact ⟨_, issueOk_of (decode_encode .get) hexec⟩

/-- Words that fit, put into an empty packer, fill it from position 0, with 0 behind them (R53, R57, R142). -/
theorem putAll_of_empty {ws : List Codeword} {s : State}
    (hfit : ∀ n, s.cfg.bufBytes = some n → 7 * ws.length ≤ 8 * n) (hbuf : s.pbuf = [])
    (hcur : s.pcur = { byte := 0, off := 0 }) :
    ∃ t, putAll ws s = some t ∧ t.cfg = s.cfg ∧ t.pbuf.length = (7 * ws.length + 7) / 8 ∧
      (∀ p, 7 * ws.length ≤ p → streamBit t.pbuf p = false) ∧
      ∀ j (h : j < ws.length), ∀ i < 7, streamBit t.pbuf (7 * j + i) = ws[j].getLsbD i := by
  have hpos : s.pcur.pos = 0 := by
    rw [hcur]
    rfl
  obtain ⟨t, hput, hpacked, hcfg, htpos, -, hwords⟩ :=
    putAll_spec decode_encode ws s (packerOk_of_empty hbuf hcur) (by simpa [hpos] using hfit)
  rw [hpos, Nat.zero_add] at htpos
  refine ⟨t, hput, hcfg, ?_, fun p hp => hpacked.zero p (htpos ▸ hp), fun j hj i hi => ?_⟩
  · rw [hpacked.1, htpos]
  · rw [← hwords j hj i hi, hpos, Nat.zero_add]

/-- Words that lie in a buffer from position 0 on are read back in order once it is loaded (R146, R197). -/
theorem getN_of_load {bytes : Memory} {ws : List Codeword} {s : State} (hwf : Memory.wf s.cfg bytes = true)
    (hlen : 7 * ws.length ≤ 8 * bytes.length)
    (hwords : ∀ j (h : j < ws.length), ∀ i < 7, streamBit bytes (7 * j + i) = ws[j].getLsbD i) :
    ∃ u v, issueLoad bytes s = some u ∧ getN ws.length u = some (v, ws) ∧ v.ubuf = bytes ∧
      v.ucur.pos = 7 * ws.length := by
  have hzero : Cursor.pos { byte := 0, off := 0 } = 0 := rfl
  obtain ⟨v, hget, hvbuf, hvpos⟩ := getN_spec decode_encode ws
    ((s.setUnpacker bytes { byte := 0, off := 0 }).reply (.hostLoad true))
    (by simpa [hzero] using hlen) (by simpa [hzero] using hwords)
  exact ⟨_, v, issueLoad_eq hwf, hget, hvbuf, by simpa [hzero] using hvpos⟩

/-- Settles O51: `putAll_of_empty` lays the words out from position 0, `getN_of_load` reads them back, and what remains are
the padding bits of the last byte, which are 0. -/
theorem getsReturnTheWordsPut : Obligations.GetsReturnTheWordsPut := by
  intro ws s hfit hbuf hcur
  obtain ⟨t, hput, hcfg, hlen, hpad, hwords⟩ := putAll_of_empty hfit hbuf hcur
  have hwf : Memory.wf t.cfg t.pbuf = true := by
    rw [Memory.wf_iff, hcfg, hlen]
    intro n hn
    have := hfit n hn
    omega
  obtain ⟨u, v, hload, hget, hvbuf, hvpos⟩ := getN_of_load hwf (by omega) hwords
  have hrem : v.rem = 8 * ((7 * ws.length + 7) / 8) - 7 * ws.length := by rw [State.rem, hvbuf, hvpos, hlen]
  refine ⟨t, u, v, hput, hlen, fun p hp _ => hpad p hp, hload, hget, hrem, by omega, fun hmod => ?_⟩
  have hseven : v.rem = 7 := by omega
  refine ⟨hseven, decide_eq_true hseven.ge, issueOk_get_zero ?_ fun i _ => ?_⟩
  · rw [hvbuf, hvpos, hlen]
    omega
  · rw [hvbuf, hvpos]
    exact hpad _ (Nat.le_add_right _ _)

end Sys2Proof.Machine
end

section
/-! PROOFS. Seven bits of a stream as a word, and with them ENCB and DECB as one command each: the two codewords put, the two
words taken, and the check that comes before either (spec 20 R51, R52; 43 R161 to R163). -/

namespace Sys2Proof.Machine

/-- The word that lies at stream position `p` of a buffer (R51, R52). -/
def streamWord (buf : Memory) (p : Nat) : Codeword := BitVec.ofFnLE fun i : Fin 7 => streamBit buf (p + i)

theorem streamWord_getLsbD (buf : Memory) (p : Nat) {i : Nat} (hi : i < 7) :
    (streamWord buf p).getLsbD i = streamBit buf (p + i) := by
  rw [streamWord, BitVec.getLsbD_ofFnLE, dif_pos hi]

/-- A word whose bits are those of the stream from `p` on is the word at `p`. -/
theorem eq_streamWord {buf : Memory} {p : Nat} {w : Codeword} (h : ∀ i < 7, w.getLsbD i = streamBit buf (p + i)) :
    w = streamWord buf p :=
  Codeword.ext_bits fun i hi => by rw [h i hi, streamWord_getLsbD buf p hi]

/-- GET's reads give the word at the cursor (R145, R146). -/
theorem unpackWord_eq_streamWord {buf : Memory} {c : Cursor} (h : c.pos + 7 ≤ 8 * buf.length) :
    unpackWord buf c = some (streamWord buf c.pos) := by
  obtain ⟨w, hread, hbit⟩ := unpackWord_streamBit buf c h
  rw [hread, eq_streamWord hbit]

/-- Two advances move a cursor by the 14 bits of a pair of words (R144). -/
theorem Cursor.advance_advance (c : Cursor) : c.advance.advance = Cursor.ofPos (c.pos + 14) :=
  Cursor.ext_pos (by simp)

/-- ENCB's check comes first: where it fails, Overflow is raised and nothing is written (R161). -/
theorem exec_encb_overflow {s : State} (h : s.pairOverflows = true) (b : Byte) :
    exec (.encb b) s = .next (s.raise .overflow) := by
  simp only [exec, execEncb, h, if_true]

/-- DECB's check comes first: with fewer than 14 bits remaining Underflow is raised and nothing is consumed (R162). -/
theorem exec_decb_underflow {s : State} (h : s.rem < 14) : exec .decb s = .next (s.raise .underflow) := by
  simp only [exec, execDecb, h, if_true]

/-- What DECB answers where 14 bits remain: the nibbles of the two words at the cursor, one behind the other (R162). -/
theorem exec_decb_stream {s : State} (h : s.ucur.pos + 14 ≤ 8 * s.ubuf.length) :
    exec .decb s = .next ((s.setUcur (Cursor.ofPos (s.ucur.pos + 14))).respondOk
      (s.rom.decAt (streamWord s.ubuf s.ucur.pos) ++ s.rom.decAt (streamWord s.ubuf (s.ucur.pos + 7)))) := by
  have hrem : 14 ≤ s.rem := by rw [State.rem]; omega
  obtain ⟨w1, w2, hread1, hread2, hexec⟩ := exec_decb_avail hrem
  rw [unpackWord_eq_streamWord (by omega)] at hread1
  rw [unpackWord_eq_streamWord (by rw [Cursor.pos_advance]; omega), Cursor.pos_advance] at hread2
  cases hread1
  cases hread2
  rw [hexec, Cursor.advance_advance, mergeNibbles_append]

/-- Settles O52: the stream of `exec_encb_stream`, whose length is that of a packer in form; op 0x8 has an operand of 8
bits. -/
theorem encbPutsTwoCodewords : Obligations.EncbPutsTwoCodewords := by
  refine ⟨fun s b hp hfit => ?_, fun s b n hn hover => ?_, fun arg => ?_⟩
  · obtain ⟨buf, hexec, ⟨hlen, -⟩, hbit⟩ := exec_encb_stream hp (pairOverflows_false hfit) b
    refine ⟨buf, ?_, ?_, fun i hi => ?_, fun i hi => ?_, fun p hout => ?_⟩
    · rw [hexec, Cursor.advance_advance]
      rfl
    · simpa [Nat.add_assoc] using hlen
    · rw [hbit, if_pos (by omega), Nat.add_sub_cancel_left]
      rfl
    · rw [hbit, if_neg (by omega), if_pos (by omega), Nat.add_sub_cancel_left]
      rfl
    · rw [hbit, if_neg (by omega), if_neg (by omega)]
  · exact exec_encb_overflow ((pairOverflows_iff s).2 ⟨n, hn, hover⟩) b
  · rw [decode_wordOf]
    exact decodeOperand_eight .encb arg

/-- Settles O53: the words at the cursor and 7 bits further, as `exec_decb_stream` decodes them; op 0x9 has no operand. -/
theorem decbTakesTwoWords : Obligations.DecbTakesTwoWords := by
  refine ⟨fun s hrem => ?_, fun s hend => exec_decb_underflow ?_, fun _ => decode_wordOf _⟩
  · exact ⟨_, _, exec_decb_stream hrem, fun i hi => streamWord_getLsbD _ _ hi, fun i hi => streamWord_getLsbD _ _ hi⟩
  · rw [State.rem]
    omega

end Sys2Proof.Machine
end

section
/-! PROOFS. ENCODE_DATA: what it lays out in the packer, and that it has no result where the bytes do not fit (spec 43 R164,
R166). -/

namespace Sys2Proof.Machine

/-- The packer just emptied, as PCLR leaves it (R148). -/
def State.cleared (s : State) : State := (s.setPacker [] { byte := 0, off := 0 }).respondOk 0

theorem State.cleared_packerOk (s : State) : s.cleared.PackerOk := packerOk_of_empty rfl rfl

@[simp] theorem State.cleared_pcur_pos (s : State) : s.cleared.pcur.pos = 0 := rfl
@[simp] theorem State.cleared_cfg (s : State) : s.cleared.cfg = s.cfg := rfl
@[simp] theorem State.cleared_rom (s : State) : s.cleared.rom = s.rom := rfl

theorem issueOk_pclr (s : State) : issueOk .pclr s = some (s.cleared, 0) :=
  issueOk_of (t := s.setPacker [] { byte := 0, off := 0 }) (decode_encode .pclr) rfl

/-- ENCODE_DATA is its ENCBs on the emptied packer, and HOST_READ (R166). -/
theorem encodeData_eq (bytes : List Byte) (s : State) :
    encodeData bytes s = (encbAll bytes s.cleared).bind issueRead := by
  rw [encodeData, issueOk_pclr, Option.bind_some]

/-- Bytes that do not fit behind the cursor: some ENCB raises Overflow, and the sequence stops there (R166). -/
theorem encbAll_eq_none {n : Nat} (bs : List Byte) {s : State} (hp : s.PackerOk) (hn : s.cfg.bufBytes = some n)
    (hpos : s.pcur.pos ≤ 8 * n) (hover : 8 * n < s.pcur.pos + 14 * bs.length) : encbAll bs s = none := by
  induction bs generalizing s with
  | nil => exact absurd hover (Nat.not_lt.2 hpos)
  | cons b bs ih =>
    rw [List.length_cons] at hover
    by_cases hfit : s.pairOverflows = true
    · rw [encbAll, issueOk_raise (decode_encode _) (exec_encb_overflow hfit b), Option.bind_none]
    · have hroom : ¬ 8 * n < s.pcur.pos + 14 := fun h => hfit ((pairOverflows_iff s).2 ⟨n, hn, h⟩)
      obtain ⟨buf, hexec, hpacked, -⟩ := exec_encb_stream hp (Bool.eq_false_of_not_eq_true hfit) b
      rw [encbAll, issueOk_of (decode_encode _) hexec, Option.bind_some]
      refine ih hpacked hn ?_ ?_ <;>
        simp only [State.respondOk_pcur, State.setPacker_pcur, Cursor.pos_advance] <;> omega

/-- What ENCODE_DATA answers where the bytes fit: the packer's buffer, in which the codewords of byte `k` are the words at
`14·k` and `14·k + 7`, with 0 behind the last (R53, R164, R166). -/
theorem encodeData_spec {bytes : List Byte} {s : State}
    (hfit : ∀ n, s.cfg.bufBytes = some n → 14 * bytes.length ≤ 8 * n) :
    ∃ t, encodeData bytes s = some (t, t.pbuf) ∧ t.cfg = s.cfg ∧ t.rom = s.rom ∧ t.pcur.pos = 14 * bytes.length ∧
      t.pbuf.length = (14 * bytes.length + 7) / 8 ∧
      (∀ p, 14 * bytes.length ≤ p → streamBit t.pbuf p = false) ∧
      ∀ k (h : k < bytes.length), s.rom.encAt (highNibble bytes[k]) = streamWord t.pbuf (14 * k) ∧
        s.rom.encAt (lowNibble bytes[k]) = streamWord t.pbuf (14 * k + 7) := by
  obtain ⟨t, hencode, hpacked, hcfg, hrom, hpos, -, hbits⟩ :=
    encbAll_spec decode_encode bytes s.cleared s.cleared_packerOk (by simpa using hfit)
  simp only [State.cleared_pcur_pos, State.cleared_rom, Nat.zero_add] at hpos hbits
  refine ⟨hostRead t, ?_, hcfg, hrom, hpos, ?_, fun p hp => hpacked.zero p (hpos ▸ hp), fun k hk => ⟨?_, ?_⟩⟩
  · rw [encodeData_eq, hencode, Option.bind_some, issueRead_eq]
    rfl
  · exact hpos ▸ hpacked.1
  · exact eq_streamWord fun i hi => (hbits k hk i hi).1.symm
  · exact eq_streamWord fun i hi => (hbits k hk i hi).2.symm

/-- Settles O56: the layout is that of `encodeData_spec`; bytes that do not fit into the emptied packer stop the ENCBs. -/
theorem encodeDataLayout : Obligations.EncodeDataLayout := by
  refine ⟨fun bytes s hfit => ?_, fun bytes s n hn hover => ?_⟩
  · obtain ⟨t, hencode, -, -, hpos, hlen, hpad, hwords⟩ := encodeData_spec hfit
    refine ⟨t, t.pbuf, hencode, rfl, hpos, hlen, ?_, fun p hp _ => hpad p hp, fun k hk i hi => ?_⟩
    · simp only [List.mem_cons, List.not_mem_nil, or_false]
      omega
    · obtain ⟨hhigh, hlow⟩ := hwords k hk
      rw [← streamWord_getLsbD _ _ hi, ← streamWord_getLsbD _ _ hi, ← hhigh, ← hlow]
      exact ⟨rfl, rfl⟩
  · rw [encodeData_eq, encbAll_eq_none bytes s.cleared_packerOk hn (Nat.zero_le _) (by simpa using hover)]
    rfl

end Sys2Proof.Machine
end

section
/-! PROOFS. DECODE_DATA: the bytes that the stream of a buffer holds, and that the loop of GETs and the loop of DECBs both give
them (spec 43 R167, R169, R171). -/

namespace Sys2Proof.Machine

/-- The whole words of a buffer's stream, in order (R167). -/
def wholeWords (buf : Memory) : List Codeword :=
  (List.range (8 * buf.length / 7)).map fun j => streamWord buf (7 * j)

/-- The bytes that the words of a buffer decode to, by pairs; an unpaired last word gives none (R167). -/
def decodedBytes (rom : Tables) (buf : Memory) : List Byte :=
  (List.range (8 * buf.length / 14)).map fun k =>
    rom.decAt (streamWord buf (14 * k)) ++ rom.decAt (streamWord buf (14 * k + 7))

@[simp] theorem wholeWords_length (buf : Memory) : (wholeWords buf).length = 8 * buf.length / 7 := by
  simp [wholeWords]

@[simp] theorem wholeWords_getElem (buf : Memory) (j : Nat) (h : j < (wholeWords buf).length) :
    (wholeWords buf)[j] = streamWord buf (7 * j) := by
  simp [wholeWords]

@[simp] theorem decodedBytes_length (rom : Tables) (buf : Memory) :
    (decodedBytes rom buf).length = 8 * buf.length / 14 := by
  simp [decodedBytes]

@[simp] theorem decodedBytes_getElem (rom : Tables) (buf : Memory) (k : Nat) (h : k < (decodedBytes rom buf).length) :
    (decodedBytes rom buf)[k] = rom.decAt (streamWord buf (14 * k)) ++ rom.decAt (streamWord buf (14 * k + 7)) := by
  simp [decodedBytes]

/-- The unpacker with a buffer just loaded at cursor `(0, 0)` (R197). -/
def State.loaded (s : State) (bytes : Memory) : State :=
  (s.setUnpacker bytes { byte := 0, off := 0 }).reply (.hostLoad true)

@[simp] theorem State.loaded_ubuf (s : State) (bytes : Memory) : (s.loaded bytes).ubuf = bytes := rfl
@[simp] theorem State.loaded_rom (s : State) (bytes : Memory) : (s.loaded bytes).rom = s.rom := rfl
@[simp] theorem State.loaded_ucur_pos (s : State) (bytes : Memory) : (s.loaded bytes).ucur.pos = 0 := rfl
@[simp] theorem State.loaded_rem (s : State) (bytes : Memory) : (s.loaded bytes).rem = 8 * bytes.length := rfl

theorem issueLoad_eq_loaded {bytes : Memory} {s : State} (hfit : ∀ n, s.cfg.bufBytes = some n → bytes.length ≤ n) :
    issueLoad bytes s = some (s.loaded bytes) :=
  issueLoad_eq ((Memory.wf_iff _ _).2 hfit)

/-- The state behind the loop over a loaded buffer: UCUR at position `p`, the last response in `output`, everything else
as before (R167). -/
def State.decodedTo (s : State) (bytes : Memory) (p : Nat) (o : Option Output) : State :=
  { s with ubuf := bytes, ucur := Cursor.ofPos p, output := o }

/-- A state that differs from the loaded one in UCUR and the response alone. -/
theorem eq_decodedTo {s t : State} {bytes : Memory} {p : Nat}
    (h : t = { s.loaded bytes with ucur := t.ucur, output := t.output }) (hpos : t.ucur.pos = p) :
    t = s.decodedTo bytes p t.output := by
  rw [State.decodedTo, ← hpos, Cursor.ofPos_pos]
  exact h

/-- The loop of GETs over a loaded buffer reads its whole words (R167). -/
theorem getLoop_loaded (s : State) (bytes : Memory) : ∃ o, getLoop (8 * bytes.length) (s.loaded bytes) =
    some (s.decodedTo bytes (7 * (8 * bytes.length / 7)) o, wholeWords bytes) := by
  obtain ⟨t, ws, hloop, hframe, hlen, hpos, hbits⟩ :=
    getLoop_spec decode_encode (8 * bytes.length) (s.loaded bytes) (by rw [State.loaded_rem]; omega)
  simp only [State.loaded_rem, State.loaded_ucur_pos, State.loaded_ubuf, Nat.zero_add] at hlen hpos hbits
  have hwords : ws = wholeWords bytes := List.ext_getElem (by simp [hlen]) fun j hj _ => by
    rw [wholeWords_getElem]
    exact eq_streamWord (hbits j hj)
  exact ⟨t.output, by rw [hloop, ← hwords, ← eq_decodedTo hframe (hpos.trans (by rw [hlen]))]⟩

/-- Decoding the whole words of a buffer by pairs gives its bytes (R167). -/
theorem decodePairs_wholeWords (buf : Memory) (s : State) :
    ∃ o, decodePairs (wholeWords buf) s = some ({ s with output := o }, decodedBytes s.rom buf) := by
  obtain ⟨t, out, hdecode, hframe, hlen, hpairs⟩ :=
    decodePairs_spec decode_encode (wholeWords buf).length (wholeWords buf) s le_rfl
  rw [wholeWords_length, Nat.div_div_eq_div_mul] at hlen
  have hout : out = decodedBytes s.rom buf := List.ext_getElem (by simp [hlen]) fun k hk _ => by
    rw [hpairs k hk (by rw [wholeWords_length]; omega) (by rw [wholeWords_length]; omega), decodedBytes_getElem,
      wholeWords_getElem, wholeWords_getElem, Nat.mul_succ, ← Nat.mul_assoc]
  exact ⟨t.output, by rw [hdecode, ← hframe, hout]⟩

/-- DECODE_DATA gives the bytes of every buffer that fits, with the cursor behind the last whole word (R167). -/
theorem decodeData_eq {bytes : Memory} {s : State} (hfit : ∀ n, s.cfg.bufBytes = some n → bytes.length ≤ n) :
    ∃ o, decodeData bytes s =
      some (s.decodedTo bytes (7 * (8 * bytes.length / 7)) o, decodedBytes s.rom bytes) := by
  obtain ⟨o, hloop⟩ := getLoop_loaded s bytes
  obtain ⟨o', hpairs⟩ := decodePairs_wholeWords bytes (s.decodedTo bytes (7 * (8 * bytes.length / 7)) o)
  refine ⟨o', ?_⟩
  rw [decodeData, issueLoad_eq_loaded hfit, Option.bind_some, hloop, Option.bind_some]
  exact hpairs

/-- The loop of DECBs gives the same bytes, with the cursor behind the last pair of words (R171). -/
theorem decodeDataPairs_eq {bytes : Memory} {s : State} (hfit : ∀ n, s.cfg.bufBytes = some n → bytes.length ≤ n) :
    ∃ o, decodeDataPairs bytes s =
      some (s.decodedTo bytes (14 * (8 * bytes.length / 14)) o, decodedBytes s.rom bytes) := by
  obtain ⟨t, out, hloop, hframe, hlen, hpos, hpairs⟩ :=
    decbLoop_spec decode_encode (8 * bytes.length) (s.loaded bytes) (by rw [State.loaded_rem]; omega)
  simp only [State.loaded_rem, State.loaded_ucur_pos, State.loaded_ubuf, State.loaded_rom, Nat.zero_add]
    at hlen hpos hpairs
  have hout : out = decodedBytes s.rom bytes := List.ext_getElem (by simp [hlen]) fun k hk _ => by
    obtain ⟨w1, w2, hbyte, hbits1, hbits2⟩ := hpairs k hk
    rw [hbyte, decodedBytes_getElem, eq_streamWord hbits1, eq_streamWord hbits2]
  refine ⟨t.output, ?_⟩
  rw [decodeDataPairs, issueLoad_eq_loaded hfit, Option.bind_some, hloop, hout,
    ← eq_decodedTo hframe (hpos.trans (by rw [hlen]))]

/-- Settles O57: the words and the bytes of `decodeData_eq`; no sticky bit is written. -/
theorem decodeDataIsTotal : Obligations.DecodeDataIsTotal := by
  intro bytes s hfit
  obtain ⟨o, hdecode⟩ := decodeData_eq hfit
  refine ⟨_, _, wholeWords bytes, hdecode, wholeWords_length bytes, fun j hj i hi => ?_, decodedBytes_length _ _,
    fun k hk h1 h2 => ?_, ?_, fun f => ?_⟩
  · rw [wholeWords_getElem, streamWord_getLsbD _ _ hi]
  · rw [decodedBytes_getElem, wholeWords_getElem, wholeWords_getElem, Nat.mul_succ, ← Nat.mul_assoc]
  · rw [wholeWords_length, State.decodedTo, Cursor.pos_ofPos]
  · cases f <;> rfl

/-- Settles O58: both loops give `decodedBytes`, and the whole words are twice the pairs, with one more where their number is
odd. -/
theorem decbLoopEqualsGetLoop : Obligations.DecbLoopEqualsGetLoop := by
  intro bytes s hfit
  obtain ⟨o, hgets⟩ := decodeData_eq hfit
  obtain ⟨o', hdecbs⟩ := decodeDataPairs_eq hfit
  refine ⟨_, _, _, hgets, hdecbs, ?_, rfl⟩
  simp only [State.decodedTo, Cursor.pos_ofPos]
  omega

end Sys2Proof.Machine
end

section
/-! PROOFS. The round trip of ENCODE_DATA and DECODE_DATA, and what corruption it survives (spec 43 R165). -/

namespace Sys2Proof.Machine

/-- Two buffers differ in at most one bit of each word's range `7·k` to `7·k + 6` (R165). -/
def AtMostOneFlipPerWord (buf out : Memory) : Prop :=
  ∀ k p q, 7 * k ≤ p → p < 7 * k + 7 → 7 * k ≤ q → q < 7 * k + 7 →
    streamBit buf p ≠ streamBit out p → streamBit buf q ≠ streamBit out q → p = q

theorem AtMostOneFlipPerWord.refl (out : Memory) : AtMostOneFlipPerWord out out :=
  fun _ _ _ _ _ _ _ hp => absurd rfl hp

/-- Flipping bit `p` of a buffer leaves every other bit as it was (R51, R165). -/
theorem streamBit_flip_of_ne (out : Memory) {p q : Nat} (h : q ≠ p) :
    streamBit (out.modify (p / 8) (· ^^^ 1#8 <<< (p % 8))) q = streamBit out q := by
  simp only [streamBit, List.getD_eq_getElem?_getD, List.getElem?_modify]
  by_cases hbyte : p / 8 = q / 8
  · have hbit : q % 8 ≠ p % 8 := by omega
    cases out[q / 8]? with
    | none => rfl
    | some x => simp [hbyte, ← BitVec.twoPow_eq, BitVec.getLsbD_twoPow, hbit.symm]
  · simp [hbyte]

theorem AtMostOneFlipPerWord.flip (out : Memory) (p : Nat) :
    AtMostOneFlipPerWord (out.modify (p / 8) (· ^^^ 1#8 <<< (p % 8))) out := by
  have honly : ∀ q, streamBit (out.modify (p / 8) (· ^^^ 1#8 <<< (p % 8))) q ≠ streamBit out q → q = p :=
    fun q hq => by_contra fun hne => hq (streamBit_flip_of_ne out hne)
  exact fun _ q r _ _ _ _ hq hr => (honly q hq).trans (honly r hr).symm

/-- A word with no two set bits has at most one. -/
theorem popcount_le_one_of_getLsbD : ∀ e : Codeword,
    (∀ i < 7, ∀ j < 7, e.getLsbD i = true → e.getLsbD j = true → i = j) → popcount (e.setWidth 8) ≤ 1 := by
  decide +kernel

/-- A word that was a codeword before its one flip decodes to the nibble of that codeword (R128, R130). -/
theorem AtMostOneFlipPerWord.decAt_streamWord {buf out : Memory} (h : AtMostOneFlipPerWord buf out) {n : Nibble}
    (k : Nat) (hword : Tables.generated.encAt n = streamWord out (7 * k)) :
    Tables.generated.decAt (streamWord buf (7 * k)) = n := by
  refine ((popcount_encAt_xor_le_one_iff n _).1 (popcount_le_one_of_getLsbD _ fun i hi j hj hbi hbj => ?_)).symm
  rw [hword, BitVec.getLsbD_xor, streamWord_getLsbD _ _ ‹_›, streamWord_getLsbD _ _ ‹_›, bne_iff_ne] at hbi hbj
  have := h k (7 * k + i) (7 * k + j) (by omega) (by omega) (by omega) (by omega) hbi.symm hbj.symm
  omega

/-- DECODE_DATA gives the encoded bytes back from every buffer that differs from the encoded one in at most one bit of each
word (R165). -/
theorem AtMostOneFlipPerWord.decodedBytes_eq {buf out : Memory} (h : AtMostOneFlipPerWord buf out) {bytes : List Byte}
    (hlen : buf.length = (14 * bytes.length + 7) / 8)
    (hwords : ∀ k (h : k < bytes.length), Tables.generated.encAt (highNibble bytes[k]) = streamWord out (14 * k) ∧
      Tables.generated.encAt (lowNibble bytes[k]) = streamWord out (14 * k + 7)) :
    decodedBytes Tables.generated buf = bytes := by
  refine List.ext_getElem (by rw [decodedBytes_length, hlen]; omega) fun k hk hk' => ?_
  obtain ⟨hhigh, hlow⟩ := hwords k hk'
  have e1 : 14 * k = 7 * (2 * k) := by omega
  have e2 : 14 * k + 7 = 7 * (2 * k + 1) := by omega
  rw [e1] at hhigh
  rw [e2] at hlow
  rw [decodedBytes_getElem, e2, e1, h.decAt_streamWord _ hhigh, h.decAt_streamWord _ hlow, ← mergeNibbles_append,
    mergeNibbles_split]

/-- Settles O60: an intact buffer and one with a single flip have at most one flip in each word. -/
theorem roundTripSurvivesOneFlipPerWord : Obligations.RoundTripSurvivesOneFlipPerWord := by
  intro bytes s hrom hfit
  obtain ⟨t, hencode, hcfg, htrom, -, hlen, -, hwords⟩ := encodeData_spec hfit
  have hdecode : ∀ buf : Memory, buf.length = t.pbuf.length → AtMostOneFlipPerWord buf t.pbuf →
      ∃ u, decodeData buf t = some (u, bytes) := fun buf hbuf hflip => by
    obtain ⟨o, hdata⟩ := decodeData_eq (bytes := buf) (s := t) fun n hn => by
      have := hfit n (hcfg ▸ hn)
      omega
    rw [htrom, hrom, hflip.decodedBytes_eq (hbuf.trans hlen) (hrom ▸ hwords)] at hdata
    exact ⟨_, hdata⟩
  exact ⟨t, t.pbuf, hencode, hdecode _ rfl (.refl _),
    fun p _ => hdecode _ (List.length_modify ..) (.flip _ p), hdecode⟩

end Sys2Proof.Machine
end

section
/-! PROOFS. Fault entry, HOST_LOAD, and where GET and DECB underflow (spec 60 R185, R186, R197). -/

namespace Sys2Proof.Machine

/-- A meaning that answers a fault has raised one: of all that a command can do, only `State.raise` answers a fault (R186). -/
theorem exec_answers_fault {i : Instr} {s t : State} {c : BitVec 3} (h : exec i s = .next t)
    (hc : t.output = some (.response (.fault c))) : ∃ k, t = s.raise k := by
  rcases exec_cases i s with ⟨r, e, -⟩ | ⟨e, -⟩ | ⟨e, -⟩ | ⟨u, r, e, -⟩ | ⟨buf, u, e, -⟩ | ⟨n, e⟩ <;>
    cases e.symm.trans h
  · cases hc
  · exact ⟨.underflow, rfl⟩
  · exact ⟨.overflow, rfl⟩
  · cases hc
  · cases hc

/-- A command word that is answered with a fault has raised one, in the decoder or in its meaning (R91, R186). -/
theorem runCommand_answers_fault {w : Cmd} {s t : State} {c : BitVec 3} (h : runCommand w s = .next t)
    (hc : t.output = some (.response (.fault c))) : ∃ k, t = s.raise k := by
  unfold runCommand at h
  split at h
  · exact exec_answers_fault h hc
  · cases h
    exact ⟨_, rfl⟩

/-- Settles O19: the next state is that of `State.raise`, which writes the sticky bits and the response alone. -/
theorem faultEntryWritesOnlyTheStickyBit : Obligations.FaultEntryWritesOnlyTheStickyBit := by
  intro s t w rest c hin h hc
  rw [step_input hin] at h
  obtain ⟨k, rfl⟩ := runCommand_answers_fault h hc
  refine ⟨rfl, k, ?_, fun j => ?_⟩
  · simpa using hc.symm
  · rw [State.raise_sticky, State.setInput_sticky, beq_eq_decide, decide_eq_decide.2 eq_comm]

/-- A HOST_LOAD with an offset of at most 7 and bytes that fit is accepted (R197). -/
theorem hostLoad_accepted {bytes : Memory} {b o : Nat} {s : State} (ho : o < 8)
    (hfit : ∀ n, s.cfg.bufBytes = some n → bytes.length ≤ n) :
    hostLoad bytes b o s = (s.setUnpacker bytes { byte := b, off := ⟨o, ho⟩ }).reply (.hostLoad true) := by
  rcases hostLoad_cases bytes b o s with ⟨_, -, e⟩ | ⟨hno, -⟩
  · exact e
  · exact absurd ⟨ho, (Memory.wf_iff _ _).2 hfit⟩ hno

/-- A HOST_LOAD with an offset above 7 or more bytes than the capacity is refused (R197). -/
theorem hostLoad_refused {bytes : Memory} {b o : Nat} {s : State}
    (h : 7 < o ∨ ∃ n, s.cfg.bufBytes = some n ∧ n < bytes.length) :
    hostLoad bytes b o s = s.reply (.hostLoad false) := by
  rcases hostLoad_cases bytes b o s with ⟨ho, hwf, -⟩ | ⟨-, e⟩
  · rcases h with hoff | ⟨n, hn, hlong⟩
    · omega
    · exact absurd ((Memory.wf_iff _ _).1 hwf n hn) (Nat.not_le.2 hlong)
  · exact e

/-- Nothing remains with the cursor's byte at or beyond the end of the buffer (R34, R197). -/
theorem State.rem_eq_zero {s : State} (h : s.ubuf.length ≤ s.ucur.byte) : s.rem = 0 := by
  rw [State.rem, Cursor.pos]
  omega

/-- With the cursor's byte at or beyond the end of the buffer UAVAIL is 0 and GET raises Underflow (R197). -/
theorem underflow_beyond_end {s : State} (h : s.ubuf.length ≤ s.ucur.byte) :
    s.uavail = false ∧ exec .get s = .next (s.raise .underflow) := by
  have hrem := State.rem_eq_zero h
  exact ⟨by simp [State.uavail, hrem], exec_get_underflow (by omega)⟩

/-- Settles O25: the step is HOST_LOAD, as `hostLoad_accepted` and `hostLoad_refused` give it, and a cursor beyond the end
underflows by `underflow_beyond_end`. -/
theorem hostLoadReplacesUnpacker : Obligations.HostLoadReplacesUnpacker := by
  intro s bytes b o rest hin
  refine ⟨_, step_input hin, fun ho hfit => ?_, fun hno => ?_⟩
  · rw [hostLoad_accepted (s := { s with input := rest }) ho hfit]
    exact ⟨rfl, fun hend => underflow_beyond_end hend⟩
  · rw [hostLoad_refused (s := { s with input := rest }) hno]
    rfl

/-- GET raises Underflow exactly where fewer than 7 bits remain (R147, R185). -/
theorem exec_get_underflow_iff (s : State) : exec .get s = .next (s.raise .underflow) ↔ s.rem < 7 := by
  refine ⟨fun h => Nat.lt_of_not_le fun havail => ?_, exec_get_underflow⟩
  obtain ⟨w, -, e⟩ := exec_get_avail havail
  exact respondOk_ne_raise _ _ _ _ (Host.Outcome.next.inj (e.symm.trans h))

/-- DECB raises Underflow exactly where fewer than 14 bits remain (R162, R185). -/
theorem exec_decb_underflow_iff (s : State) : exec .decb s = .next (s.raise .underflow) ↔ s.rem < 14 := by
  refine ⟨fun h => Nat.lt_of_not_le fun havail => ?_, exec_decb_underflow⟩
  obtain ⟨w1, w2, -, -, e⟩ := exec_decb_avail havail
  exact respondOk_ne_raise _ _ _ _ (Host.Outcome.next.inj (e.symm.trans h))

/-- Settles O45: each command's check, by `State.le_rem_iff` a bound in the integers; with no byte at the cursor nothing
remains. -/
theorem underflowIsRaisedExactly : Obligations.UnderflowIsRaisedExactly := by
  refine fun s => ⟨?_, ?_, fun hend => ?_⟩
  · rw [exec_get_underflow_iff, ← Nat.not_le, s.le_rem_iff (by decide), Int.not_le]
    rfl
  · rw [exec_decb_underflow_iff, ← Nat.not_le, s.le_rem_iff (by decide), Int.not_le]
    rfl
  · have hlen : s.ubuf.length ≤ s.ucur.byte := hend.elim (fun hnil => by simp [hnil]) id
    have hrem := State.rem_eq_zero hlen
    exact ⟨exec_get_underflow (by omega), exec_decb_underflow (by omega)⟩

end Sys2Proof.Machine
end

section
/-! PROOFS. Only the reset event is reset: what INIT, PCLR and an empty HOST_LOAD restore (spec 40 R106; 42 R148; 60 R197; 70
R211). -/

namespace Sys2Proof.Machine

/-- Issuing a command's word gives the command its meaning (R91). -/
theorem issue_encode (i : Instr) (s : State) : issue (.command (encode i)) s = exec i s := by
  rw [issue_eq, runInput, runCommand, decode_encode]

/-- HOST_LOAD of no bytes is accepted at every offset of at most 7, as no capacity is below 0 (R197). -/
theorem issue_hostLoad_nil (b : Nat) {o : Nat} (ho : o < 8) (s : State) :
    issue (.hostLoad [] b o) s = .next ((s.setUnpacker [] { byte := b, off := ⟨o, ho⟩ }).reply (.hostLoad true)) := by
  have hload := hostLoad_accepted (bytes := []) (b := b) (s := s) ho fun n _ => Nat.zero_le n
  rw [issue_eq, runInput, hload]

/-- Settles O27: each is issued and has its meaning: INIT by `exec_init`, PCLR by `pclrEmptiesPacker`, HOST_LOAD by
`issue_hostLoad_nil`; each next state writes the fields named alone. -/
theorem onlyResetIsReset : Obligations.OnlyResetIsReset := by
  refine fun s => ⟨?_, ?_, _, issue_hostLoad_nil 0 (by decide) s⟩
  · exact (issue_encode .init s).trans (exec_init s)
  · exact (issue_encode .pclr s).trans (pclrEmptiesPacker.1 s)

end Sys2Proof.Machine
end

section
/-! PROOFS. Encoder, decoder and opcode table: each command has its one word, the table's rows select the words of their
commands, and how many of the 4096 words are commands (spec 30 R82, R84, R91; 95 section 2.8). -/

namespace Sys2Proof.Machine

/-- Settles O1: as `decode_encode` says, by cases on the command. -/
theorem decodeInvertsEncode : Obligations.DecodeInvertsEncode := decode_encode

/-- Only a word that passes both checks of R91 decodes to a command. -/
theorem wellFormed_of_decode {w : Cmd} {i : Instr} (h : decode w = .command i) : (fieldsOf w).wellFormed = true := by
  cases ha : (fieldsOf w).assigned with
  | false => cases (decode_unassigned ha).symm.trans h
  | true =>
    cases hr : (fieldsOf w).operandInRange with
    | false => cases (decode_reserved ha hr).symm.trans h
    | true => rw [Command.wellFormed, ha, hr, Bool.and_self]

/-- A word that decodes to a command is the word of that command (R84, R87). -/
theorem encode_of_decode {w : Cmd} {i : Instr} (h : decode w = .command i) : encode i = w := by
  obtain ⟨j, hdecode, hencode⟩ := decode_wellFormed (wellFormed_of_decode h)
  cases hdecode.symm.trans h
  exact hencode

/-- Settles O2: by `encode_of_decode`. -/
theorem encodeInvertsDecode : Obligations.EncodeInvertsDecode := fun _ _ => encode_of_decode

/-- The word of a command selects the one row of its mnemonic (R84). -/
theorem rowsOf_encode (i : Instr) : rowsOf (encode i) = [i.mnemonic] := by
  have hform : Laws.EncodedForm.Statement i := by
    cases i with
    | init => exact Laws.EncodedForm.init
    | par x => exact Laws.EncodedForm.par x
    | enc n => exact Laws.EncodedForm.enc n
    | syn c => exact Laws.EncodedForm.syn c
    | err y => exact Laws.EncodedForm.err y
    | dec c => exact Laws.EncodedForm.dec c
    | put w => exact Laws.EncodedForm.put w
    | get => exact Laws.EncodedForm.get
    | encb b => exact Laws.EncodedForm.encb b
    | decb => exact Laws.EncodedForm.decb
    | pclr => exact Laws.EncodedForm.pclr
    | stat => exact Laws.EncodedForm.stat
  exact hform.1

/-- The row of the opcode table asks for the operation `op`, and for a 0 in each of its reserved bits (R84). -/
def RowIsOf (r : OpcodeRow) (op : BitVec 4) : Prop :=
  r.pattern = wordOf { op, arg := 0 } ∧ r.mask = wordOf { op := 0xF, arg := Command.reservedBits { op, arg := 0 } }

/-- Each row of the table is of an assigned operation (R84). -/
theorem exists_rowIsOf_of_mem_opcodeTable : ∀ r ∈ opcodeTable, ∃ op < 0xC#4, RowIsOf r op := by
  unfold RowIsOf
  decide +kernel

/-- Masking a word masks its two fields (R80). -/
theorem fieldsOf_and_wordOf (w : Cmd) (c : Command) :
    fieldsOf (w &&& wordOf c) = { op := (fieldsOf w).op &&& c.op, arg := (fieldsOf w).arg &&& c.arg } := by
  simp only [fieldsOf, wordOf, BitVec.extractLsb'_and, BitVec.extractLsb'_append_eq_left,
    BitVec.extractLsb'_append_eq_right]

/-- A word that a row selects is a legal command word (R84). -/
theorem RowIsOf.wellFormed {r : OpcodeRow} {op : BitVec 4} (hr : RowIsOf r op) (hop : op < 0xC#4) {w : Cmd}
    (hsel : w &&& r.mask = r.pattern) : (fieldsOf w).wellFormed = true := by
  obtain ⟨hpattern, hmask⟩ := hr
  have hfields := congrArg fieldsOf hsel
  rw [hpattern, hmask, fieldsOf_and_wordOf, fieldsOf_wordOf] at hfields
  injection hfields with hwop harg
  obtain rfl : (fieldsOf w).op = op := BitVec.and_allOnes.symm.trans hwop
  exact Bool.and_eq_true_iff.2 ⟨decide_eq_true hop, beq_iff_eq.2 harg⟩

/-- A word that the decoder rejects selects no row (R84). -/
theorem rowsOf_of_reject {w : Cmd} {k : FaultKind} (h : decode w = .reject k) : rowsOf w = [] := by
  have hnone : ∀ r ∈ opcodeTable, ¬ (w &&& r.mask == r.pattern) = true := fun r hr hsel => by
    obtain ⟨op, hop, hrow⟩ := exists_rowIsOf_of_mem_opcodeTable r hr
    obtain ⟨i, hdecode, -⟩ := decode_wellFormed (hrow.wellFormed hop (beq_iff_eq.1 hsel))
    cases hdecode.symm.trans h
  rw [rowsOf, List.filter_eq_nil_iff.2 hnone, List.map_nil]

/-- Settles O3: a command's word is its encoding, whose row `rowsOf_encode` gives; a rejected word selects no row, as every
selected word is well-formed. -/
theorem decoderAgreesWithOpcodeTable : Obligations.DecoderAgreesWithOpcodeTable := fun _ =>
  ⟨fun i h => encode_of_decode h ▸ rowsOf_encode i, fun _ h => rowsOf_of_reject h⟩

/-- Settles O5: each of the twelve words is the encoding of its command. -/
theorem sampleWordsDecode : Obligations.SampleWordsDecode :=
  ⟨decode_encode .init, decode_encode (.par 0x0B), decode_encode (.enc 0xA), decode_encode (.syn 0x27),
    decode_encode (.err 6), decode_encode (.dec 0x27), decode_encode (.put 0x5A), decode_encode .get,
    decode_encode (.encb 0xA5), decode_encode .decb, decode_encode .pclr, decode_encode .stat⟩

/-- A table word is read as a command exactly where it is a 12-bit word that decodes to it (R84). -/
theorem decodeTableWord_eq_some_iff (nbits w : Nat) (i : Instr) :
    decodeTableWord nbits w = some i ↔ w < 4096 ∧ decode (BitVec.ofNat 12 w) = .command i := by
  unfold decodeTableWord
  split
  · cases decode (BitVec.ofNat 12 w) <;> simp [*]
  · simp [*]

/-- Settles O6: a pending word by `step_command`; the placed table word is such a word. -/
theorem stepRunsDecodedCommand : Obligations.StepRunsDecodedCommand := by
  refine ⟨fun s w rest i hin hd => step_command hin hd, fun s nbits w i hd => ?_⟩
  obtain ⟨-, hdecode⟩ := (decodeTableWord_eq_some_iff nbits w i).1 hd
  exact step_command (State.withInput_input s _) hdecode

/-- Settles O4: three closed counts, for which the kernel evaluates the decoder on each of the 4096 words. -/
theorem commandWordCensus : Obligations.CommandWordCensus := by
  refine ⟨?_, ?_, ?_⟩ <;> decide +kernel

end Sys2Proof.Machine
end

section
/-! PROOFS. PUT, GET, ENCB and DECB inverted: each next state with the fields it was computed from, on any state. From these,
what each command reads and leaves (spec 20 R66; 30 R90; 42 R140 to R147; 43 R161, R162; 60 R187). -/

namespace Sys2Proof.Machine

/-- Of two writes to the packer the later one is left. -/
@[simp] theorem State.setPacker_setPacker (s : State) (buf buf' : Memory) (c c' : Cursor) :
    (s.setPacker buf c).setPacker buf' c' = s.setPacker buf' c' := rfl

/-- Of two moves of the unpacker's cursor the later one is left. -/
@[simp] theorem State.setUcur_setUcur (s : State) (c c' : Cursor) : (s.setUcur c).setUcur c' = s.setUcur c' := rfl

/-- What PUT answers, as an equivalence: it reads the capacity and the packer alone (R141, R143). -/
theorem exec_put_eq_next_iff {w : Codeword} {s t : State} :
    exec (.put w) s = .next t ↔ (s.putOverflows = true ∧ t = s.raise .overflow) ∨
      (s.putOverflows = false ∧ ∃ buf, packWord s.pbuf s.pcur w = some buf ∧
        t = (s.setPacker buf s.pcur.advance).respondOk 0) := by
  simp only [exec, execPut, State.packNext]
  cases s.putOverflows with
  | true => simp [eq_comm]
  | false => cases packWord s.pbuf s.pcur w <;> simp [eq_comm]

/-- What GET answers, as an equivalence: it reads the unpacker alone (R145, R147). -/
theorem exec_get_eq_next_iff {s t : State} :
    exec .get s = .next t ↔ (s.rem < 7 ∧ t = s.raise .underflow) ∨
      (¬ s.rem < 7 ∧ ∃ w, unpackWord s.ubuf s.ucur = some w ∧
        t = (s.setUcur s.ucur.advance).respondOk (zext8 w)) := by
  simp only [exec, execGet, State.unpackNext]
  by_cases hrem : s.rem < 7
  · simp [hrem, eq_comm]
  · cases unpackWord s.ubuf s.ucur <;> simp [hrem, eq_comm]

/-- What ENCB answers, as an equivalence: two of PUT's writes behind one check (R161). -/
theorem exec_encb_eq_next_iff {b : Byte} {s t : State} :
    exec (.encb b) s = .next t ↔ (s.pairOverflows = true ∧ t = s.raise .overflow) ∨
      (s.pairOverflows = false ∧ ∃ b1 b2, packWord s.pbuf s.pcur (s.rom.encAt (highNibble b)) = some b1 ∧
        packWord b1 s.pcur.advance (s.rom.encAt (lowNibble b)) = some b2 ∧
        t = (s.setPacker b2 s.pcur.advance.advance).respondOk 0) := by
  simp only [exec, execEncb, State.packNext]
  cases s.pairOverflows with
  | true => simp [eq_comm]
  | false =>
    cases packWord s.pbuf s.pcur (s.rom.encAt (highNibble b)) with
    | none => simp
    | some b1 =>
      cases h2 : packWord b1 s.pcur.advance (s.rom.encAt (lowNibble b)) with
      | none => simp [h2]
      | some b2 => simp [h2, eq_comm]

/-- What DECB answers, as an equivalence: two of GET's reads behind one check (R162). -/
theorem exec_decb_eq_next_iff {s t : State} :
    exec .decb s = .next t ↔ (s.rem < 14 ∧ t = s.raise .underflow) ∨
      (¬ s.rem < 14 ∧ ∃ w1 w2, unpackWord s.ubuf s.ucur = some w1 ∧ unpackWord s.ubuf s.ucur.advance = some w2 ∧
        t = (s.setUcur s.ucur.advance.advance).respondOk (mergeNibbles (s.rom.decAt w1) (s.rom.decAt w2))) := by
  simp only [exec, execDecb, State.unpackNext]
  by_cases hrem : s.rem < 14
  · simp [hrem, eq_comm]
  · cases unpackWord s.ubuf s.ucur with
    | none => simp [hrem]
    | some w1 => cases h2 : unpackWord s.ubuf s.ucur.advance <;> simp [hrem, h2, eq_comm]

/-- PUT, ENCB and PCLR act alike on two states with the same capacity, tables and packer: they read nothing else (R66,
R140). -/
theorem exec_packer_congr {i : Instr} {s s' t : State} (hi : (∃ w, i = .put w) ∨ (∃ b, i = .encb b) ∨ i = .pclr)
    (hcfg : s'.cfg = s.cfg) (hrom : s'.rom = s.rom) (hbuf : s'.pbuf = s.pbuf) (hcur : s'.pcur = s.pcur)
    (h : exec i s = .next t) :
    (t = s.raise .overflow ∧ exec i s' = .next (s'.raise .overflow)) ∨
      ∃ buf c, t = (s.setPacker buf c).respondOk 0 ∧ exec i s' = .next ((s'.setPacker buf c).respondOk 0) := by
  rcases hi with ⟨w, rfl⟩ | ⟨b, rfl⟩ | rfl
  · have hcheck : s'.putOverflows = s.putOverflows := by simp only [State.putOverflows, hcfg, hcur]
    rw [exec_put_eq_next_iff, ← hcheck, ← hbuf, ← hcur] at h
    rcases h with ⟨hover, rfl⟩ | ⟨hfit, buf, hpack, rfl⟩
    · exact .inl ⟨rfl, exec_put_eq_next_iff.2 (.inl ⟨hover, rfl⟩)⟩
    · exact .inr ⟨_, _, rfl, exec_put_eq_next_iff.2 (.inr ⟨hfit, buf, hpack, rfl⟩)⟩
  · have hcheck : s'.pairOverflows = s.pairOverflows := by simp only [State.pairOverflows, hcfg, hcur]
    rw [exec_encb_eq_next_iff, ← hcheck, ← hrom, ← hbuf, ← hcur] at h
    rcases h with ⟨hover, rfl⟩ | ⟨hfit, b1, b2, hpack1, hpack2, rfl⟩
    · exact .inl ⟨rfl, exec_encb_eq_next_iff.2 (.inl ⟨hover, rfl⟩)⟩
    · exact .inr ⟨_, _, rfl, exec_encb_eq_next_iff.2 (.inr ⟨hfit, b1, b2, hpack1, hpack2, rfl⟩)⟩
  · cases h
    exact .inr ⟨_, _, rfl, rfl⟩

/-- GET and DECB act alike on two states with the same tables and unpacker: they read nothing else (R66, R140). -/
theorem exec_unpacker_congr {i : Instr} {s s' t : State} (hi : i = .get ∨ i = .decb) (hrom : s'.rom = s.rom)
    (hbuf : s'.ubuf = s.ubuf) (hcur : s'.ucur = s.ucur) (h : exec i s = .next t) :
    (t = s.raise .underflow ∧ exec i s' = .next (s'.raise .underflow)) ∨
      ∃ c r, t = (s.setUcur c).respondOk r ∧ exec i s' = .next ((s'.setUcur c).respondOk r) := by
  have hcheck : s'.rem = s.rem := by simp only [State.rem, hbuf, hcur]
  rcases hi with rfl | rfl
  · rw [exec_get_eq_next_iff, ← hcheck, ← hbuf, ← hcur] at h
    rcases h with ⟨hfew, rfl⟩ | ⟨hrem, w, hread, rfl⟩
    · exact .inl ⟨rfl, exec_get_eq_next_iff.2 (.inl ⟨hfew, rfl⟩)⟩
    · exact .inr ⟨_, _, rfl, exec_get_eq_next_iff.2 (.inr ⟨hrem, w, hread, rfl⟩)⟩
  · rw [exec_decb_eq_next_iff, ← hcheck, ← hrom, ← hbuf, ← hcur] at h
    rcases h with ⟨hfew, rfl⟩ | ⟨hrem, w1, w2, hread1, hread2, rfl⟩
    · exact .inl ⟨rfl, exec_decb_eq_next_iff.2 (.inl ⟨hfew, rfl⟩)⟩
    · exact .inr ⟨_, _, rfl, exec_decb_eq_next_iff.2 (.inr ⟨hrem, w1, w2, hread1, hread2, rfl⟩)⟩

/-- Settles O50: a write to the one half of the core changes nothing that the commands of the other half read, nor anything
that they write. -/
theorem packerAndUnpackerAreIndependent : Obligations.PackerAndUnpackerAreIndependent := by
  refine ⟨fun i s t u c hi h => ?_, fun i s t u c hi h => ?_⟩
  · rcases exec_packer_congr (s := s) (s' := s.setUnpacker u c) hi rfl rfl rfl rfl h
      with ⟨rfl, e⟩ | ⟨_, _, rfl, e⟩ <;> exact e
  · rcases exec_unpacker_congr (s := s) (s' := s.setPacker u c) hi rfl rfl rfl h
      with ⟨rfl, e⟩ | ⟨_, _, rfl, e⟩ <;> exact e

/-- Settles O49: what the two commands answer is Underflow raised or UCUR moved, and either way a response. -/
theorem unpackerCommandsFrame : Obligations.UnpackerCommandsFrame := by
  intro i s t hi h
  rcases exec_unpacker_congr (s := s) (s' := s) hi rfl rfl rfl h with ⟨rfl, -⟩ | ⟨c, r, rfl, -⟩
  · simp [State.raise]
  · rfl

/-- Settles O22: the sticky bits are none of what the stream commands read, and the others, STAT apart, answer from the
operand and the tables. -/
theorem faultBitsAreSeenByStatAlone : Obligations.FaultBitsAreSeenByStatAlone := by
  intro i s t x y z v hi h
  cases i with
  | put | encb =>
    rcases exec_packer_congr (s := s) (s' := { s with fIll := x, fOpr := y, fUnd := z, fOvf := v }) (by simp)
      rfl rfl rfl rfl h with ⟨rfl, e⟩ | ⟨_, _, rfl, e⟩ <;> exact ⟨_, e, rfl⟩
  | get | decb =>
    rcases exec_unpacker_congr (s := s) (s' := { s with fIll := x, fOpr := y, fUnd := z, fOvf := v }) (by simp)
      rfl rfl rfl h with ⟨rfl, e⟩ | ⟨_, _, rfl, e⟩ <;> exact ⟨_, e, rfl⟩
  | stat => exact absurd rfl hi
  | init | par | enc | syn | err | dec | pclr =>
    cases h
    exact ⟨_, rfl, rfl⟩

/-- ENCB's check passes exactly where the 14 bits at the cursor lie within the capacity, if there is one (R161). -/
theorem pairOverflows_eq_false_iff (s : State) :
    s.pairOverflows = false ↔ ∀ n, s.cfg.bufBytes = some n → s.pcur.pos + 14 ≤ 8 * n := by
  rw [← Bool.not_eq_true, pairOverflows_iff]
  push Not
  rfl

/-- Settles O54: where 14 bits fit so do the first 7, and behind them the other 7. -/
theorem encbIsTwoEncsAndPuts : Obligations.EncbIsTwoEncsAndPuts := by
  intro s t b h hok
  rcases exec_encb_eq_next_iff.1 h with ⟨-, rfl⟩ | ⟨hfit, b1, b2, hpack1, hpack2, rfl⟩
  · cases hok
  have hroom := (pairOverflows_eq_false_iff s).1 hfit
  have hfit1 : s.putOverflows = false := (putOverflows_eq_false_iff s).2 fun n hn => by
    have := hroom n hn
    omega
  have hfit2 : ((s.setPacker b1 s.pcur.advance).respondOk 0).putOverflows = false :=
    (putOverflows_eq_false_iff _).2 fun n hn => by simpa using hroom n hn
  exact ⟨s.rom.encAt (highNibble b), s.rom.encAt (lowNibble b), exec_enc _ s, exec_enc _ s, _,
    exec_put_eq_next_iff.2 (.inr ⟨hfit1, b1, hpack1, rfl⟩), exec_put_eq_next_iff.2 (.inr ⟨hfit2, b2, hpack2, rfl⟩)⟩

/-- Settles O55: where 14 bits remain so do 7, and 7 are left behind the first GET. -/
theorem decbIsTwoGetsAndDecs : Obligations.DecbIsTwoGetsAndDecs := by
  intro s t r h hok
  rcases exec_decb_eq_next_iff.1 h with ⟨-, rfl⟩ | ⟨hrem, w1, w2, hread1, hread2, rfl⟩
  · cases hok
  have hrem2 : ¬ ((s.setUcur s.ucur.advance).respondOk (zext8 w1)).rem < 7 := by
    rw [State.respondOk_rem, State.setUcur_advance_rem]
    omega
  have hr : mergeNibbles (s.rom.decAt w1) (s.rom.decAt w2) = r := by simpa using hok
  exact ⟨w1, w2, s.rom.decAt w1, s.rom.decAt w2, _, _,
    exec_get_eq_next_iff.2 (.inr ⟨by omega, w1, hread1, rfl⟩), rfl,
    exec_get_eq_next_iff.2 (.inr ⟨hrem2, w2, hread2, rfl⟩), rfl, exec_dec w1 s, exec_dec w2 s,
    hr ▸ mergeNibbles_append _ _, rfl⟩

end Sys2Proof.Machine
end

section
/-! PROOFS. What every command and every step leaves unchanged, which fault a command can answer, and the sticky bits of a
run (spec 10 R37; 30 R81; 60 R181, R187). -/

namespace Sys2Proof.Machine

/-- No command writes the configuration, a table, UBUF or the pending inputs, and each gives a response (R30, R37,
R81). -/
theorem exec_frame {i : Instr} {s t : State} (h : exec i s = .next t) :
    t.cfg = s.cfg ∧ t.rom = s.rom ∧ t.ubuf = s.ubuf ∧ t.input = s.input ∧ ∃ r, t.output = some (.response r) := by
  rcases exec_cases i s with ⟨r, e, -⟩ | ⟨e, -⟩ | ⟨e, -⟩ | ⟨c, r, e, -⟩ | ⟨buf, c, e, -⟩ | ⟨n, e⟩ <;>
    cases e.symm.trans h <;> exact ⟨rfl, rfl, rfl, rfl, _, rfl⟩

/-- Only GET and DECB move the unpacker's cursor (R24). -/
theorem exec_ucur_eq_or {i : Instr} {s t : State} (h : exec i s = .next t) :
    t.ucur = s.ucur ∨ i = .get ∨ i = .decb := by
  rcases exec_cases i s with ⟨r, e, -⟩ | ⟨e, -⟩ | ⟨e, -⟩ | ⟨c, r, e, hi⟩ | ⟨buf, c, e, -⟩ | ⟨n, e⟩ <;>
    cases e.symm.trans h
  · exact .inl rfl
  · exact .inl rfl
  · exact .inl rfl
  · exact .inr hi
  · exact .inl rfl

/-- Only PUT, ENCB and PCLR write the packer (R23, R29). -/
theorem exec_packer_eq_or {i : Instr} {s t : State} (h : exec i s = .next t) :
    (t.pbuf = s.pbuf ∧ t.pcur = s.pcur) ∨ (∃ w, i = .put w) ∨ (∃ b, i = .encb b) ∨ i = .pclr := by
  rcases exec_cases i s with ⟨r, e, -⟩ | ⟨e, -⟩ | ⟨e, -⟩ | ⟨c, r, e, -⟩ | ⟨buf, c, e, hi⟩ | ⟨n, e⟩ <;>
    cases e.symm.trans h
  · exact .inl ⟨rfl, rfl⟩
  · exact .inl ⟨rfl, rfl⟩
  · exact .inl ⟨rfl, rfl⟩
  · exact .inl ⟨rfl, rfl⟩
  · exact .inr hi

/-- Settles O20: only `State.raise` answers a fault, and a command raises Underflow or Overflow alone. -/
theorem faultsBelongToTheirCommands : Obligations.FaultsBelongToTheirCommands := by
  intro i s t c h hc
  rcases exec_cases i s with ⟨r, e, -⟩ | ⟨e, hi⟩ | ⟨e, -, hi⟩ | ⟨u, r, e, -⟩ | ⟨buf, u, e, -⟩ | ⟨n, e⟩ <;>
    cases e.symm.trans h
  · cases hc
  · cases hc
    exact .inl ⟨rfl, hi⟩
  · cases hc
    exact .inr ⟨rfl, hi⟩
  · cases hc
  · cases hc

/-- A command word, decoded or rejected, leaves the pending inputs and gives a response (R81). -/
theorem runCommand_answers {w : Cmd} {s t : State} (h : runCommand w s = .next t) :
    t.input = s.input ∧ ∃ r, t.output = some (.response r) := by
  unfold runCommand at h
  split at h
  · obtain ⟨-, -, -, hinput, hresponse⟩ := exec_frame h
    exact ⟨hinput, hresponse⟩
  · cases h
    exact ⟨rfl, _, rfl⟩

/-- Settles O21: the step takes the word from the pending inputs, and `runCommand_answers`. -/
theorem everyCommandIsAnswered : Obligations.EveryCommandIsAnswered := by
  intro s t w rest hin h
  rw [step_input hin] at h
  exact runCommand_answers h

/-- A run has not gone wrong exactly where no sticky bit is set (R36, R187). -/
theorem State.wentWrong_eq_false_iff (s : State) : s.wentWrong = false ↔ ∀ k, s.sticky k = false := by
  obtain ⟨hill, hopr, hund, hovf⟩ := s.status_sticky_bits
  have hbits : s.wentWrong = false ↔ ∀ i : Fin 4, s.status.getLsbD (4 + i) = false := by
    rw [State.wentWrong, bne_eq_false_iff_eq]
    refine ⟨fun h i => ?_, fun h => BitVec.eq_of_getLsbD_eq fun i hi => ?_⟩
    · simpa using congrArg (·.getLsbD i.val) h
    · simpa [hi] using h ⟨i, hi⟩
  rw [hbits]
  refine ⟨fun h k => ?_, fun h i => ?_⟩
  · cases k with
    | illegalOp => exact hill ▸ h 0
    | operandRange => exact hopr ▸ h 1
    | underflow => exact hund ▸ h 2
    | overflow => exact hovf ▸ h 3
  · fin_cases i
    · exact hill.trans (h _)
    · exact hopr.trans (h _)
    · exact hund.trans (h _)
    · exact hovf.trans (h _)

/-- Settles O23: an `ok` answer leaves the sticky bits as they were, a fault answer sets one. -/
theorem cleanStatusMeansNoRefusal : Obligations.CleanStatusMeansNoRefusal := by
  intro s t w rest hin h
  rw [step_input hin] at h
  rw [State.wentWrong_eq_false_iff, State.wentWrong_eq_false_iff]
  obtain ⟨-, r, hr⟩ := runCommand_answers h
  cases r with
  | ok res =>
    have hsticky : ∀ k, t.sticky k = s.sticky k := fun k => by simpa [hr] using runCommand_stickyRecorded h k
    simp [hsticky, hr]
  | fault c =>
    obtain ⟨k, rfl⟩ := runCommand_answers_fault h hr
    refine ⟨fun hclean => ?_, fun ⟨_, _, hok⟩ => ?_⟩
    · simpa using hclean k
    · cases hr.symm.trans hok

/-- HOST_LOAD writes the unpacker alone: the configuration, the tables and the packer stay (R197). -/
theorem hostLoad_frame (bytes : Memory) (b o : Nat) (s : State) :
    (hostLoad bytes b o s).cfg = s.cfg ∧ (hostLoad bytes b o s).rom = s.rom ∧
      (hostLoad bytes b o s).pbuf = s.pbuf ∧ (hostLoad bytes b o s).pcur = s.pcur := by
  rcases hostLoad_cases bytes b o s with ⟨_, -, e⟩ | ⟨-, e⟩ <;> rw [e] <;> exact ⟨rfl, rfl, rfl, rfl⟩

/-- Settles O16: no input but the reset event writes a table, and that one to the generated values. -/
theorem tablesAreImmutable : Obligations.TablesAreImmutable := by
  intro s t h
  have hrom : t.rom = s.rom ∨ s.input.head? = some .reset ∧ t.rom = Tables.generated := by
    rcases step_cases h with ⟨-, rfl⟩ | ⟨w, rest, i, -, -, hexec⟩ | ⟨w, rest, k, -, -, rfl⟩ |
      ⟨bytes, b, o, rest, -, rfl⟩ | ⟨rest, -, rfl⟩ | ⟨rest, hin, rfl⟩
    · exact .inl rfl
    · obtain ⟨-, hrom, -, -, -⟩ := exec_frame hexec
      exact .inl hrom
    · exact .inl rfl
    · obtain ⟨-, hrom, -, -⟩ := hostLoad_frame bytes b o { s with input := rest }
      exact .inl hrom
    · exact .inl rfl
    · exact .inr ⟨by rw [hin]; rfl, rfl⟩
  rcases hrom with hsame | ⟨hreset, hgen⟩
  · exact ⟨fun _ => hsame, hsame.trans⟩
  · exact ⟨fun hno => absurd hreset hno, fun _ => hgen⟩

/-- Settles O24: the idle step, HOST_READ and a rejected word write none of the four, HOST_LOAD the unpacker alone, and
which command writes what is said by `exec_frame`, `exec_ucur_eq_or` and `exec_packer_eq_or`. -/
theorem onlyTheNamedInputsWrite : Obligations.OnlyTheNamedInputsWrite := by
  intro s t h
  rcases step_cases h with ⟨-, rfl⟩ | ⟨w, rest, i, hin, hd, hexec⟩ | ⟨w, rest, k, -, -, rfl⟩ |
    ⟨bytes, b, o, rest, hin, rfl⟩ | ⟨rest, -, rfl⟩ | ⟨rest, hin, rfl⟩
  · simp
  · obtain ⟨-, -, hubuf, -, -⟩ := exec_frame hexec
    refine ⟨absurd hubuf, fun hne => ⟨rest, .inr (.inr ⟨w, hin, ?_⟩)⟩, fun hne => ⟨rest, .inr ⟨w, hin, ?_⟩⟩⟩
    · rcases (exec_ucur_eq_or hexec).resolve_left hne with rfl | rfl
      · exact .inl hd
      · exact .inr hd
    · rcases (exec_packer_eq_or hexec).resolve_left (not_and_or.2 hne) with ⟨v, rfl⟩ | ⟨b, rfl⟩ | rfl
      · exact .inl ⟨v, hd⟩
      · exact .inr (.inl ⟨b, hd⟩)
      · exact .inr (.inr hd)
  · simp
  · obtain ⟨-, -, hpbuf, hpcur⟩ := hostLoad_frame bytes b o { s with input := rest }
    exact ⟨fun _ => ⟨rest, .inl ⟨bytes, b, o, hin⟩⟩, fun _ => ⟨rest, .inl ⟨bytes, b, o, hin⟩⟩,
      fun hne => absurd ⟨hpbuf, hpcur⟩ (not_and_or.2 hne)⟩
  · simp [hostRead]
  · exact ⟨fun _ => ⟨rest, .inr hin⟩, fun _ => ⟨rest, .inr (.inl hin)⟩, fun _ => ⟨rest, .inl hin⟩⟩

/-- Settles O39: each of the seven answers from its operand, the tables and, for STAT, the status, and writes the response
alone. -/
theorem pureCommandsChangeOnlyTheResponse : Obligations.PureCommandsChangeOnlyTheResponse := by
  refine ⟨fun i s hi => ?_, fun i s s' hi hrom => ?_⟩
  · rcases hi with rfl | ⟨x, rfl⟩ | ⟨n, rfl⟩ | ⟨c, rfl⟩ | ⟨y, rfl⟩ | ⟨c, rfl⟩ | rfl <;> exact ⟨_, rfl⟩
  · rcases hi with ⟨x, rfl⟩ | ⟨n, rfl⟩ | ⟨c, rfl⟩ | ⟨y, rfl⟩ | ⟨c, rfl⟩
    · exact ⟨zext8 (s.rom.parAt x), rfl, by rw [hrom]; rfl⟩
    · exact ⟨_, exec_enc n s, by rw [hrom]; exact exec_enc n s'⟩
    · exact ⟨_, exec_syn c s, by rw [hrom]; exact exec_syn c s'⟩
    · exact ⟨_, exec_err y s, exec_err y s'⟩
    · exact ⟨_, exec_dec c s, by rw [hrom]; exact exec_dec c s'⟩

end Sys2Proof.Machine
end

section
/-! PROOFS. The invariants of the core: they hold at reset, every command and so every step keeps them, and with the packer
in form no command stops (spec 10 R23, R29 to R31; 20 R67; 70 R210, R222). -/

namespace Sys2Proof.Machine

/-- The packer's form is a matter of its buffer and its cursor alone. -/
theorem State.PackerOk.of_eq {s t : State} (hp : s.PackerOk) (hbuf : t.pbuf = s.pbuf) (hcur : t.pcur = s.pcur) :
    t.PackerOk := by
  simpa only [State.PackerOk, hbuf, hcur] using hp

/-- PUT's writes leave a packer in form (R31, R141). -/
theorem State.PackerOk.of_packWord {s : State} (hp : s.PackerOk) {w : Codeword} {buf : Memory}
    (h : packWord s.pbuf s.pcur w = some buf) : (s.setPacker buf s.pcur.advance).PackerOk := by
  obtain ⟨buf', hnext, hok, -⟩ := packNext_spec hp w
  rw [State.packNext, h, Option.map_some, Option.some.injEq] at hnext
  rwa [hnext]

/-- Every command keeps the packer in form (R31). -/
theorem exec_packerOk {i : Instr} {s t : State} (hp : s.PackerOk) (h : exec i s = .next t) : t.PackerOk := by
  rcases exec_packer_eq_or h with ⟨hbuf, hcur⟩ | ⟨w, rfl⟩ | ⟨b, rfl⟩ | rfl
  · exact hp.of_eq hbuf hcur
  · rcases exec_put_eq_next_iff.1 h with ⟨-, rfl⟩ | ⟨-, buf, hpack, rfl⟩
    · exact hp
    · exact hp.of_packWord hpack
  · rcases exec_encb_eq_next_iff.1 h with ⟨-, rfl⟩ | ⟨-, b1, b2, hpack1, hpack2, rfl⟩
    · exact hp
    · exact (hp.of_packWord hpack1).of_packWord hpack2
  · cases h
    exact packerOk_of_empty rfl rfl

/-- Settles O14: of the inputs only a command and the reset event write the packer. -/
theorem stepKeepsPackerInvariant : Obligations.StepKeepsPackerInvariant := by
  intro s t hp h
  rcases step_cases h with ⟨-, rfl⟩ | ⟨w, rest, i, -, -, hexec⟩ | ⟨w, rest, k, -, -, rfl⟩ |
    ⟨bytes, b, o, rest, -, rfl⟩ | ⟨rest, -, rfl⟩ | ⟨rest, -, rfl⟩
  · exact hp
  · exact exec_packerOk (s := { s with input := rest }) hp hexec
  · exact hp
  · obtain ⟨-, -, hbuf, hcur⟩ := hostLoad_frame bytes b o { s with input := rest }
    exact hp.of_eq hbuf hcur
  · exact hp
  · exact packerOk_of_empty rfl rfl

/-- With the packer in form, its two bounds say that its cursor lies within the capacity (R23, R29, R31). -/
theorem State.PackerOk.capacityOk_iff {s : State} (hp : s.PackerOk) :
    s.CapacityOk ↔ Memory.wf s.cfg s.ubuf = true ∧ ∀ n, s.cfg.bufBytes = some n → s.pcur.pos ≤ 8 * n := by
  rw [State.CapacityOk, Memory.wf_iff s.cfg s.pbuf, hp.1, Cursor.byte_eq]
  refine ⟨fun ⟨hpbuf, hubuf, _⟩ => ⟨hubuf, fun n hn => ?_⟩,
    fun ⟨hubuf, hpos⟩ => ⟨fun n hn => ?_, hubuf, fun n hn => ?_⟩⟩
  · have := hpbuf n hn
    omega
  · have := hpos n hn
    omega
  · have := hpos n hn
    omega

/-- Every command keeps the packer's cursor within the capacity: PUT and ENCB check it, PCLR goes back to 0 (R143, R148,
R161). -/
theorem exec_pcur_le {i : Instr} {s t : State} {n : Nat} (hn : s.cfg.bufBytes = some n) (hpos : s.pcur.pos ≤ 8 * n)
    (h : exec i s = .next t) : t.pcur.pos ≤ 8 * n := by
  rcases exec_packer_eq_or h with ⟨-, hcur⟩ | ⟨w, rfl⟩ | ⟨b, rfl⟩ | rfl
  · rwa [hcur]
  · rcases exec_put_eq_next_iff.1 h with ⟨-, rfl⟩ | ⟨hfit, buf, -, rfl⟩
    · exact hpos
    · simpa using (putOverflows_eq_false_iff s).1 hfit n hn
  · rcases exec_encb_eq_next_iff.1 h with ⟨-, rfl⟩ | ⟨hfit, b1, b2, -, -, rfl⟩
    · exact hpos
    · simpa using (pairOverflows_eq_false_iff s).1 hfit n hn
  · cases h
    exact Nat.zero_le _

/-- Every command keeps the capacity bounds (R23, R29, R30). -/
theorem exec_capacityOk {i : Instr} {s t : State} (hp : s.PackerOk) (hc : s.CapacityOk) (h : exec i s = .next t) :
    t.CapacityOk := by
  obtain ⟨hcfg, -, hubuf, -, -⟩ := exec_frame h
  obtain ⟨hwf, hpos⟩ := hp.capacityOk_iff.1 hc
  rw [(exec_packerOk hp h).capacityOk_iff, hcfg, hubuf]
  exact ⟨hwf, fun n hn => exec_pcur_le hn (hpos n hn) h⟩

/-- Settles O15: a command by `exec_capacityOk`; HOST_LOAD takes only bytes that fit, and reset leaves both buffers
empty. -/
theorem stepKeepsCapacityBounds : Obligations.StepKeepsCapacityBounds := by
  intro s t hp hc h
  rcases step_cases h with ⟨-, rfl⟩ | ⟨w, rest, i, -, -, hexec⟩ | ⟨w, rest, k, -, -, rfl⟩ |
    ⟨bytes, b, o, rest, -, rfl⟩ | ⟨rest, -, rfl⟩ | ⟨rest, -, rfl⟩
  · exact hc
  · exact exec_capacityOk (s := { s with input := rest }) hp hc hexec
  · exact hc
  · obtain ⟨hpbuf, hubuf, hbyte⟩ := hc
    obtain ⟨hcfg, -, hbuf, hcur⟩ := hostLoad_frame bytes b o { s with input := rest }
    have hload := hostLoad_wf (s := { s with input := rest }) hubuf bytes b o
    rw [State.CapacityOk, hcfg, hbuf, hcur]
    exact ⟨hpbuf, hload, hbyte⟩
  · exact hc
  · obtain ⟨hpbuf, hubuf⟩ := resetWith_wf s.cfg
    exact ⟨hpbuf, hubuf, fun n _ => Nat.zero_le n⟩

/-- Settles O13: the tables are the generated ones, and both buffers are empty. -/
theorem invariantHoldsAtReset : Obligations.InvariantHoldsAtReset := fun cfg =>
  have ⟨hpbuf, hubuf⟩ := resetWith_wf cfg
  ⟨rfl, packerOk_of_empty rfl rfl, hpbuf, hubuf, fun n _ => Nat.zero_le n⟩

/-- With the packer in form every command answers a next state (R67, R187). -/
theorem exec_answers {s : State} (hp : s.PackerOk) (i : Instr) : ∃ t, exec i s = .next t := by
  cases i with
  | put w =>
    cases hover : s.putOverflows with
    | true => exact ⟨_, exec_put_overflow hover w⟩
    | false =>
      obtain ⟨buf, -, hexec⟩ := exec_put_fits hp hover w
      exact ⟨_, hexec⟩
  | get =>
    rcases Nat.lt_or_ge s.rem 7 with hfew | havail
    · exact ⟨_, exec_get_underflow hfew⟩
    · obtain ⟨w, -, hexec⟩ := exec_get_avail havail
      exact ⟨_, hexec⟩
  | encb b =>
    cases hover : s.pairOverflows with
    | true => exact ⟨_, exec_encb_overflow hover b⟩
    | false =>
      obtain ⟨buf, hexec, -⟩ := exec_encb_stream hp hover b
      exact ⟨_, hexec⟩
  | decb =>
    rcases Nat.lt_or_ge s.rem 14 with hfew | havail
    · exact ⟨_, exec_decb_underflow hfew⟩
    · obtain ⟨w1, w2, -, -, hexec⟩ := exec_decb_avail havail
      exact ⟨_, hexec⟩
  | init | par | enc | syn | err | dec | pclr | stat => exact ⟨_, rfl⟩

/-- Settles O17: a command by `exec_answers`; a rejected word, a host action and the reset event always answer. -/
theorem stepNeverStops : Obligations.StepNeverStops := by
  intro s hp
  match hin : s.input with
  | [] => exact ⟨_, step_idle hin⟩
  | .command w :: rest =>
    cases hd : decode w with
    | command i => exact step_command hin hd ▸ exec_answers (s := { s with input := rest }) hp i
    | reject k => exact ⟨_, step_reject hin hd⟩
  | .hostLoad _ _ _ :: _ | .hostRead :: _ | .reset :: _ => exact ⟨_, step_input hin⟩

/-- PUT's writes leave every byte before the cursor's byte, and after the last one that the word touches (R141). -/
theorem packWord_getElem?_outside {buf out : Memory} {c : Cursor} {w : Codeword} (hlen : buf.length = (c.pos + 7) / 8)
    (h : packWord buf c w = some out) {a : Nat} (ha : a < c.byte ∨ (c.pos + 6) / 8 < a) : out[a]? = buf[a]? := by
  obtain ⟨out', hout, -, hget⟩ := packWord_getElem? buf c w hlen
  obtain rfl : out = out' := Option.some.inj (h.symm.trans hout)
  rw [Cursor.pos] at ha
  rw [hget, if_neg (by omega), if_neg (by omega)]

/-- Settles O48: Overflow leaves the packer; the one word of PUT or the two of ENCB lie between the bounds of
`packWord_getElem?_outside`. -/
theorem packerCommandsFrame : Obligations.PackerCommandsFrame := by
  rintro i bits (⟨⟨w, rfl⟩, rfl⟩ | ⟨⟨b, rfl⟩, rfl⟩) s t hp h
  · rcases exec_put_eq_next_iff.1 h with ⟨-, rfl⟩ | ⟨-, buf, hpack, rfl⟩
    · exact ⟨by simp [State.raise], fun a _ => rfl⟩
    · exact ⟨rfl, fun a ha => packWord_getElem?_outside hp.1 hpack ha⟩
  · rcases exec_encb_eq_next_iff.1 h with ⟨-, rfl⟩ | ⟨-, b1, b2, hpack1, hpack2, rfl⟩
    · exact ⟨by simp [State.raise], fun a _ => rfl⟩
    · have hp1 := hp.of_packWord hpack1
      refine ⟨rfl, fun a ha =>
        (packWord_getElem?_outside hp1.1 hpack2 ?_).trans (packWord_getElem?_outside hp.1 hpack1 ?_)⟩
      · rw [State.setPacker_pcur, Cursor.byte_eq, Cursor.pos_advance]
        rw [Cursor.byte_eq] at ha
        omega
      · omega

end Sys2Proof.Machine
end

section
/-! PROOFS. The reset event, HOST_READ and the idle step (spec 60 R198, R204; 70 R210), and the round trip of an intact
buffer (43 R165). -/

namespace Sys2Proof.Machine

/-- Settles O11: the step is `hardReset` on the state with the event taken away. -/
theorem resetEventRestoresState : Obligations.ResetEventRestoresState := fun _ _ hin => step_input hin

/-- Settles O12: by `step_idle`. -/
theorem idleStepChangesNothing : Obligations.IdleStepChangesNothing := fun _ => step_idle

/-- Settles O26: the step is `hostRead` on the state with the action taken away. -/
theorem hostReadReturnsPackerBuffer : Obligations.HostReadReturnsPackerBuffer := fun _ _ hin => step_input hin

/-- Settles O59: the first part of the round trip under corruption. -/
theorem decodeDataInvertsEncodeData : Obligations.DecodeDataInvertsEncodeData := by
  intro bytes s hrom hfit
  obtain ⟨t, out, hencode, ⟨u, hdecode⟩, -⟩ := roundTripSurvivesOneFlipPerWord bytes s hrom hfit
  exact ⟨t, out, u, hencode, hdecode⟩

end Sys2Proof.Machine
end
